-- ==== Sys2Proof/Word.lean ====
section
/-! DEFINITION. The word types of the machine (spec R5, R7). -/

namespace Sys2Proof

/-- A general register, a memory cell, a timer: 8 bits, unsigned (R5, R31, R70). -/
abbrev Byte := BitVec 8

/-- `pc`, `I`, a stack slot, an instruction word: 16 bits (R33, R34, R35, R100). -/
abbrev Word := BitVec 16

/-- A 12-bit absolute address field `nnn` of an instruction (R101). -/
abbrev Addr12 := BitVec 12

/-- The index of a general register: every 4-bit value names one (R31, R102). -/
abbrev RegIdx := Fin 16

/-- The number of a key, 0x0..0xF (R39). -/
abbrev KeyIdx := Fin 16

/-- Sixteen key-down flags, one per key (R39, R40). -/
abbrev KeySet := Vector Bool 16

end Sys2Proof
end

