-- ==== Sys2Proof/Config.lean ====
section
/-! DEFINITION. The sizes the spec fixes (R5) and the parameters it leaves open (R6). An open
parameter is an opaque constant: nothing in Lean can see its value, so a claim holds for every value. -/

namespace Sys2Proof.Config

/-- 4096 bytes of memory, addresses 0x000..0xFFF (R5, R70). -/
def memSize : Nat := 0x1000

/-- The address programs are loaded at and the reset value of `pc` (R5, R34, R71). -/
def progBase : Nat := 0x200

/-- The longest ROM the loader takes: 4096 - 0x200 = 3584 bytes (R5, R336). -/
def romMax : Nat := 3584

/-- The address of the first font byte, `font_base` (R5, R12, R72). -/
def fontBase : Nat := 0x50

/-- 16 glyphs of 5 bytes (R72). -/
def fontSize : Nat := 80

/-- `P_FONT` (R6, R72): the 80 font bytes; the spec gives their place and not their values.
A free value (log entry 3). -/
opaque pFont : Vector Byte 80

/-- `P_RNG` seen along the sequence of states it runs through from a seed (R6, R341): the byte the
generator seeded with the first argument draws at the call numbered by the second (from 0).
A free value (log entry 1). -/
opaque rngByte : Nat → Nat → Byte

/-- `P_KEYSEL` (R6, R322): the key a wait resolves to, out of the list (ascending) of the keys
that show a down edge. A free value (log entry 4); `selectKey` holds it to a member of the list. -/
opaque pKeySel : List KeyIdx → KeyIdx

/-- The seed `P_SEED` with which `State.reset` is constructed. DESIGN CHOICE (log entry 2): the spec
gives no seed; the bytes drawn from it are free values all the same. -/
def resetSeed : Nat := 0

end Sys2Proof.Config
end

