-- ==== Sys2Proof/Syntax.lean ====
section
/-! DEFINITION. The instructions: one constructor per row of spec/opcode_table.json (R104, R105),
in the table's order. The fields are those of R101; `x` and `y` name registers, `nn` is an 8-bit
immediate, `nnn` a 12-bit address, `n` a row count. -/

namespace Sys2Proof

/-- The 35 instructions and the fallback handler unknown-opcode (R1, R105). -/
inductive Instr where
  /-- `0000` explicit-halt (R140). -/
  | explicitHalt
  /-- `00E0` clear-display (R271). -/
  | clearDisplay
  /-- `00EE` return (R143). -/
  | ret
  /-- `1nnn` jump (R144). -/
  | jump (nnn : Addr12)
  /-- `2nnn` call (R145). -/
  | call (nnn : Addr12)
  /-- `3xnn` skip-if-eq-imm (R146). -/
  | skipIfEqImm (x : RegIdx) (nn : Byte)
  /-- `4xnn` skip-if-ne-imm (R147). -/
  | skipIfNeImm (x : RegIdx) (nn : Byte)
  /-- `5xy0` skip-if-eq-reg (R148). -/
  | skipIfEqReg (x y : RegIdx)
  /-- `6xnn` load-imm (R181). -/
  | loadImm (x : RegIdx) (nn : Byte)
  /-- `7xnn` add-imm (R182). -/
  | addImm (x : RegIdx) (nn : Byte)
  /-- `8xy0` move (R183). -/
  | move (x y : RegIdx)
  /-- `8xy1` or (R184). -/
  | or (x y : RegIdx)
  /-- `8xy2` and (R185). -/
  | and (x y : RegIdx)
  /-- `8xy3` xor (R186). -/
  | xor (x y : RegIdx)
  /-- `8xy4` add-with-carry (R187). -/
  | addWithCarry (x y : RegIdx)
  /-- `8xy5` sub-with-borrow (R188). -/
  | subWithBorrow (x y : RegIdx)
  /-- `8xy6` shift-right (R189); `y` is decoded and not read. -/
  | shiftRight (x y : RegIdx)
  /-- `8xy7` reverse-sub (R190). -/
  | reverseSub (x y : RegIdx)
  /-- `8xyE` shift-left (R191); `y` is decoded and not read. -/
  | shiftLeft (x y : RegIdx)
  /-- `9xy0` skip-if-ne-reg (R149). -/
  | skipIfNeReg (x y : RegIdx)
  /-- `Annn` load-index (R231). -/
  | loadIndex (nnn : Addr12)
  /-- `Bnnn` jump-indexed (R150). -/
  | jumpIndexed (nnn : Addr12)
  /-- `Cxnn` random (R192). -/
  | random (x : RegIdx) (nn : Byte)
  /-- `Dxyn` draw-sprite (R272). -/
  | drawSprite (x y : RegIdx) (n : Fin 16)
  /-- `Ex9E` skip-if-key-down (R291). -/
  | skipIfKeyDown (x : RegIdx)
  /-- `ExA1` skip-if-key-up (R292). -/
  | skipIfKeyUp (x : RegIdx)
  /-- `Fx07` get-delay (R293). -/
  | getDelay (x : RegIdx)
  /-- `Fx0A` wait-for-key (R294). -/
  | waitForKey (x : RegIdx)
  /-- `Fx15` set-delay (R295). -/
  | setDelay (x : RegIdx)
  /-- `Fx18` set-sound (R296). -/
  | setSound (x : RegIdx)
  /-- `Fx1E` add-to-index (R232). -/
  | addToIndex (x : RegIdx)
  /-- `Fx29` sprite-address (R233). -/
  | spriteAddress (x : RegIdx)
  /-- `Fx33` store-bcd (R234). -/
  | storeBcd (x : RegIdx)
  /-- `Fx55` store-registers (R235). -/
  | storeRegisters (x : RegIdx)
  /-- `Fx65` load-registers (R236). -/
  | loadRegisters (x : RegIdx)
  /-- unknown-opcode (R331): the fallback handler, with the raw instruction word it reports. -/
  | unknownOpcode (w : Word)
  deriving DecidableEq, Repr

end Sys2Proof
end

