-- ==== Sys2Proof/Machine/State.lean ====
section
/-! DEFINITION. The state of the machine (spec 10_state.md, 20_memory.md R70), the reasons a step can
stop, and the machine right after reset (70_reset_and_hazards.md R380). -/

namespace Sys2Proof.Machine

/-- Memory as (address, byte) pairs in one canonical form, `Memory.wf` in Machine/Ops.lean: addresses
rising, no entry equal to what an unlisted address reads as (R70; log entry 5). -/
abbrev Memory := List Host.Cell

/-- The display: 32 rows of 64 pixels, `true` for 1. The cell `display[r*64 + c]` of R37 is row `r`,
column `c`. -/
abbrev Display := Vector (Vector Bool 64) 32

/-- The generator's state (R44, R341): the seed it was constructed with and the number of bytes drawn
since. Any generator runs through one sequence of states from a seed, so this names each of its states
(log entry 1). -/
structure RngState where
  /-- `P_SEED`. -/
  seed : Nat
  /-- How many times `random_byte()` was called. -/
  drawn : Nat
  deriving DecidableEq, Repr

/-- The six kinds of error (R329). -/
inductive ErrorKind where
  /-- Fetch would read past the end of memory. -/
  | addressOutOfRange
  /-- No decode rule matched. -/
  | unknownOpcode
  /-- Call with `sp = 16`. -/
  | stackOverflow
  /-- Return with `sp = 0`. -/
  | stackUnderflow
  /-- A data address `I + k` above 0xFFF. -/
  | dataAddressOutOfRange
  /-- `V[x]` above 0x0F as a key number. -/
  | keyIndexOutOfRange
  deriving DecidableEq, Repr

/-- The register that says why the machine halted (R45). -/
inductive Stop where
  /-- The machine runs. -/
  | running
  /-- explicit-halt was executed. -/
  | halt
  /-- An error was raised, with its context. -/
  | error (kind : ErrorKind) (ctx : Word)
  deriving DecidableEq, Repr

/-- Everything the machine holds (R30 to R46). -/
structure State where
  /-- `V0`..`VF` (R31); `VF` is also the flag (R32). -/
  v : Vector Byte 16
  /-- The index register `I` (R33). -/
  i : Word
  /-- The program counter (R34). -/
  pc : Word
  /-- The return addresses (R35). -/
  stack : Vector Word 16
  /-- The next free slot, 0..16 (R36). -/
  sp : Fin 17
  /-- Memory (R70). -/
  mem : Memory
  /-- The display buffer (R37). -/
  display : Display
  /-- `delay_timer` (R38). -/
  delayTimer : Byte
  /-- `sound_timer` (R38). -/
  soundTimer : Byte
  /-- The key-down flags the host writes (R39). -/
  keys : KeySet
  /-- The key sample of the step before (R40). -/
  prevKeys : KeySet
  /-- `draw_pending` (R41). -/
  drawPending : Bool
  /-- `halted` (R42). -/
  halted : Bool
  /-- `awaiting_key` (R43). -/
  awaitingKey : Bool
  /-- `key_target` (R43). -/
  keyTarget : RegIdx
  /-- `rng_state` (R44). -/
  rngState : RngState
  /-- `stop` (R45). -/
  stop : Stop
  deriving DecidableEq, Repr

/-- The reasons a step stops with a fault: none. Every error of this machine is a state it goes to
(R330), a halted machine's step changes nothing (R320), and no rule of the spec gives a step without a
next state (93_implementation_defined.md: "No behaviour of this block is treated as `stuck`"). Nobody
raises a fault; that is safe (log entry 6). -/
inductive Fault where
  deriving DecidableEq, Repr

/-- The reasons a step is refused. -/
inductive Refusal where
  /-- An instruction with no meaning in this model, by its mnemonic; only an arm of `exec` may raise it,
  and none does. Safe: nothing is then claimed of that instruction. -/
  | notModelled (mnemonic : String)
  deriving DecidableEq, Repr

/-- `Construct` (R380) with `P_SEED = seed`: the font is in memory (an unlisted address reads as the
construction value, log entry 5), `pc` is 0x200, everything else is zero. -/
def State.construct (seed : Nat) : State where
  v := Vector.replicate 16 0
  i := 0
  pc := 0x200
  stack := Vector.replicate 16 0
  sp := 0
  mem := []
  display := Vector.replicate 32 (Vector.replicate 64 false)
  delayTimer := 0
  soundTimer := 0
  keys := Vector.replicate 16 false
  prevKeys := Vector.replicate 16 false
  drawPending := false
  halted := false
  awaitingKey := false
  keyTarget := 0
  rngState := { seed := seed, drawn := 0 }
  stop := .running

/-- The machine right after reset, which is construction (R380 to R382). The seed is
DESIGN CHOICE (log entry 2). -/
def State.reset : State := State.construct Config.resetSeed

end Sys2Proof.Machine
end

