-- ==== Sys2Proof/Machine/Ops.lean ====
section
/-! DEFINITION. The named operations every meaning is built of: memory, registers, the stack, the
program counter, raising an error (this machine's one exception), the timer tick, the random byte and
the choice of a key. -/

namespace Sys2Proof.Machine

/-- What the meaning of an instruction answers. -/
abbrev Result := Host.Outcome State Fault Refusal

/-! ### Memory (R70 to R76) -/

/-- What an address holds after construction, and so what an address that memory does not list reads
as: the font at 0x50..0x9F, 0 elsewhere (R71, R72, R380; log entries 3 and 5). -/
def Memory.initial (a : Nat) : Byte :=
  if h : 0x50 ≤ a ∧ a - 0x50 < 80 then Config.pFont[a - 0x50] else 0

/-- The canonical form: addresses rise, each is below 4096 (R70), and no entry equals what its address
reads as unlisted. -/
abbrev Memory.wf (m : Memory) : Prop :=
  m.Pairwise (fun a b => a.1 < b.1) ∧ ∀ c ∈ m, c.1 < Config.memSize ∧ c.2 ≠ Memory.initial c.1

/-- `MemRead(a, 1)` (R75). -/
def Memory.read : Memory → Nat → Byte
  | [], a => Memory.initial a
  | (b, v) :: m, a => if a = b then v else Memory.read m a

/-- The entry that says address `a` holds `v`: none where that is what `a` reads as unlisted. -/
def Memory.entry (a : Nat) (v : Byte) : Memory :=
  if v = Memory.initial a then [] else [(a, v)]

/-- `MemWrite(a, 1, v)` (R76), keeping the canonical form. -/
def Memory.write : Memory → Nat → Byte → Memory
  | [], a, v => Memory.entry a v
  | (b, w) :: m, a, v =>
    if a < b then Memory.entry a v ++ (b, w) :: m
    else if a = b then Memory.entry a v ++ m
    else (b, w) :: Memory.write m a v

/-- The bytes at `a`, `a + 1`, …, `a + n - 1`, in that order. -/
def Memory.readBytes (m : Memory) : Nat → Nat → List Byte
  | _, 0 => []
  | a, n + 1 => m.read a :: Memory.readBytes m (a + 1) n

/-- Write bytes at `a`, `a + 1`, …, the first at the lowest address (R78). -/
def Memory.writeBytes : Memory → Nat → List Byte → Memory
  | m, _, [] => m
  | m, a, v :: vs => Memory.writeBytes (m.write a v) (a + 1) vs

/-! ### Registers (R31, R32) -/

/-- `V[x]`. -/
def State.reg (s : State) (x : RegIdx) : Byte := s.v[x]

/-- `V[x] <- b`. -/
def State.setReg (s : State) (x : RegIdx) (b : Byte) : State := { s with v := s.v.set x b }

/-- The index of `VF`. -/
def vF : RegIdx := 15

/-- `V[k] <- ` the first byte, `V[k+1] <- ` the next, and so on up to `VF`. -/
def setRegsFrom : Vector Byte 16 → Nat → List Byte → Vector Byte 16
  | v, _, [] => v
  | v, k, b :: bs => setRegsFrom (v.setIfInBounds k b) (k + 1) bs

/-! ### Program counter (R324) -/

/-- The next instruction: `pc <- pc + 2`. -/
def State.advance (s : State) : State := { s with pc := s.pc + 2 }

/-- `pc <- target`. -/
def State.jumpTo (s : State) (target : Word) : State := { s with pc := target }

/-- `pc <- pc + 4` if the condition holds, else `pc <- pc + 2` (R142). -/
def State.skipIf (s : State) (cond : Bool) : State :=
  { s with pc := if cond then s.pc + 4 else s.pc + 2 }

/-! ### Halting and errors (R140, R330) -/

/-- What explicit-halt does: the machine halts normally, `pc` stays (R140, R334). -/
def State.haltNormally (s : State) : State := { s with halted := true, stop := .halt }

/-- `raise Error(kind, ctx)`, the only trap of this hardware: `halted` and `stop` are written and
nothing else, `pc` stays at the faulting instruction (R330). There is no return from it (R332). -/
def State.raise (s : State) (kind : ErrorKind) (ctx : Word) : State :=
  { s with halted := true, stop := .error kind ctx }

/-- Whether a machine that was running before its handler ran has raised an error in it. -/
def State.raised (s : State) : Bool :=
  match s.stop with
  | .error _ _ => s.halted
  | .running | .halt => false

/-! ### Stack (R35, R36) -/

/-- Push a return address; none when all 16 slots are taken. -/
def State.push (s : State) (w : Word) : Option State :=
  if h : s.sp.val < 16 then
    some { s with stack := s.stack.set s.sp.val w, sp := ⟨s.sp.val + 1, by omega⟩ }
  else none

/-- Pop a return address, leaving the slot's value in place (R35); none when no slot is taken. -/
def State.pop (s : State) : Option (Word × State) :=
  if h : s.sp.val = 0 then none
  else
    have hsp : s.sp.val - 1 < 16 := by omega
    some (s.stack[s.sp.val - 1], { s with sp := ⟨s.sp.val - 1, by omega⟩ })

/-! ### Timers (R327) -/

/-- A timer one tick later: it goes down by one and stays at 0. -/
def tickTimer (t : Byte) : Byte := if t = 0 then 0 else t - 1

/-- `TimerTick()`: both timers. -/
def State.tick (s : State) : State :=
  { s with delayTimer := tickTimer s.delayTimer, soundTimer := tickTimer s.soundTimer }

/-! ### Random byte (R341) -/

/-- `P_RNG` on a state of the generator: the byte it draws and the next state (log entry 1). -/
def pRng (r : RngState) : Byte × RngState :=
  (Config.rngByte r.seed r.drawn, { r with drawn := r.drawn + 1 })

/-- `random_byte()`: the byte, and the machine with its generator advanced. -/
def State.randomByte (s : State) : Byte × State :=
  ((pRng s.rngState).1, { s with rngState := (pRng s.rngState).2 })

/-! ### Keys (R322) -/

/-- The keys that show a down edge, ascending: down in the sample, up in the sample before. -/
def keyEdges (sample prev : KeySet) : List KeyIdx :=
  (List.finRange 16).filter fun k => sample[k] && !prev[k]

/-- `P_KEYSEL` on the set of edges: some key of the set, none when it is empty (log entry 4). -/
def selectKey : List KeyIdx → Option KeyIdx
  | [] => none
  | [k] => some k
  | k :: k' :: ks =>
    let chosen := Config.pKeySel (k :: k' :: ks)
    some (if (k :: k' :: ks).contains chosen then chosen else k)

/-- A key number as the 8-bit value a register receives, 0x00..0x0F. -/
def keyCode (k : KeyIdx) : Byte := BitVec.ofNat 8 k.val

end Sys2Proof.Machine
end

