-- ==== Sys2Proof/Machine/Operands.lean ====
section
/-! DEFINITION. The operand forms: zero-extended immediates and addresses (R102), effective addresses
through `I` with their range check (R80, R230), the key number in a register (R290), and the origin of
a sprite (R272). -/

namespace Sys2Proof.Machine

/-- `zext_16`: zero-extension to 16 bits; nothing in this machine sign-extends (R7, R102). -/
def zext16 {w : Nat} (v : BitVec w) : Word := v.setWidth 16

/-- The effective address `I + k`, in unbounded arithmetic (R80, R230). -/
def State.dataAddr (s : State) (k : Nat) : Nat := s.i.toNat + k

/-- Whether every address of an access to `n` bytes through `I` is at most 0xFFF (R80); an access to no
byte always is. -/
def State.dataFits (s : State) (n : Nat) : Bool :=
  n == 0 || decide (s.dataAddr (n - 1) ≤ 0xFFF)

/-- An access to `n` bytes through `I`: its effect `t`, or `Error(DataAddressOutOfRange, I)` before any
effect (R80). -/
def State.withData (s : State) (n : Nat) (t : State) : State :=
  if s.dataFits n then t else s.raise .dataAddressOutOfRange s.i

/-- The `n` bytes an access reads through `I`. -/
def State.readData (s : State) (n : Nat) : List Byte := s.mem.readBytes (s.dataAddr 0) n

/-- Memory with bytes written through `I`. -/
def State.writeData (s : State) (bs : List Byte) : State :=
  { s with mem := s.mem.writeBytes (s.dataAddr 0) bs }

/-- The key a register value names; none above 0x0F (R290). -/
def keyOperand (b : Byte) : Option KeyIdx :=
  if h : b.toNat < 16 then some ⟨b.toNat, h⟩ else none

/-- A skip on the key `V[x]` names, or `Error(KeyIndexOutOfRange, zext_16(V[x]))` before any effect
(R290 to R292). `cond` is asked of that key's flag. -/
def State.skipOnKey (s : State) (x : RegIdx) (cond : Bool → Bool) : State :=
  match keyOperand (s.reg x) with
  | some k => s.skipIf (cond s.keys[k])
  | none => s.raise .keyIndexOutOfRange (zext16 (s.reg x))

/-- The column a sprite starts at, `V[x] mod 64` (R272). -/
def State.spriteCol (s : State) (x : RegIdx) : Nat := (s.reg x).toNat % 64

/-- The row a sprite starts at, `V[y] mod 32` (R272). -/
def State.spriteRow (s : State) (y : RegIdx) : Nat := (s.reg y).toNat % 32

end Sys2Proof.Machine
end

