-- ==== Sys2Proof/Machine/Flags.lean ====
section
/-! DEFINITION. The 8-bit results (R180) and every flag computation: carry, no-borrow, the bit shifted
out (R187 to R191). The collision flag of draw-sprite is in Machine/Display.lean. -/

namespace Sys2Proof.Machine

/-- A flag as the value `VF` receives: 1 or 0. -/
def flagByte (f : Bool) : Byte := if f then 1 else 0

/-- `(a + b) mod 256` (R182, R187). -/
def addByte (a b : Byte) : Byte := BitVec.ofNat 8 (a.toNat + b.toNat)

/-- The carry out of bit 7: the exact sum is 256 or more (R187). -/
def carryOut (a b : Byte) : Bool := decide (256 ≤ a.toNat + b.toNat)

/-- `(a - b) mod 256`, the non-negative residue (R180, R188). -/
def subByte (a b : Byte) : Byte := BitVec.ofInt 8 ((a.toNat : Int) - (b.toNat : Int))

/-- No borrow: `a >= b` (R188, R190). -/
def noBorrow (a b : Byte) : Bool := decide (b.toNat ≤ a.toNat)

/-- `a >> 1` (R189). -/
def shrByte (a : Byte) : Byte := a >>> 1

/-- The bit a right shift moves out, old bit 0 (R189). -/
def shrOut (a : Byte) : Bool := a.getLsbD 0

/-- `(a << 1) mod 256` (R191). -/
def shlByte (a : Byte) : Byte := a <<< 1

/-- The bit a left shift moves out, old bit 7 (R191). -/
def shlOut (a : Byte) : Bool := a.getLsbD 7

/-- Write a result and then, as the last write, the flag: with `x = 0xF` the flag is what `VF` keeps
(R32, R9). -/
def State.setRegFlag (s : State) (x : RegIdx) (result : Byte) (flag : Bool) : State :=
  (s.setReg x result).setReg vF (flagByte flag)

/-- The decimal digits of a byte, hundreds first (R234). -/
def bcdDigits (b : Byte) : List Byte :=
  [BitVec.ofNat 8 (b.toNat / 100), BitVec.ofNat 8 (b.toNat / 10 % 10), BitVec.ofNat 8 (b.toNat % 10)]

end Sys2Proof.Machine
end

