-- ==== Sys2Proof/Machine/Alu.lean ====
section
/-! DEFINITION. Register loads, arithmetic, logic and random (spec 41_alu.md). Every operand is read
before the first write (R9), the flag is written last (R32), and `pc` advances by 2. -/

namespace Sys2Proof.Machine

/-- load-imm (R181). -/
def execLoadImm (x : RegIdx) (nn : Byte) (s : State) : Result := .next (s.setReg x nn).advance

/-- add-imm (R182): no flag. -/
def execAddImm (x : RegIdx) (nn : Byte) (s : State) : Result :=
  .next (s.setReg x (addByte (s.reg x) nn)).advance

/-- move (R183). -/
def execMove (x y : RegIdx) (s : State) : Result := .next (s.setReg x (s.reg y)).advance

/-- or (R184): no flag. -/
def execOr (x y : RegIdx) (s : State) : Result := .next (s.setReg x (s.reg x ||| s.reg y)).advance

/-- and (R185): no flag. -/
def execAnd (x y : RegIdx) (s : State) : Result := .next (s.setReg x (s.reg x &&& s.reg y)).advance

/-- xor (R186): no flag. -/
def execXor (x y : RegIdx) (s : State) : Result := .next (s.setReg x (s.reg x ^^^ s.reg y)).advance

/-- add-with-carry (R187). -/
def execAddWithCarry (x y : RegIdx) (s : State) : Result :=
  .next (s.setRegFlag x (addByte (s.reg x) (s.reg y)) (carryOut (s.reg x) (s.reg y))).advance

/-- sub-with-borrow (R188). -/
def execSubWithBorrow (x y : RegIdx) (s : State) : Result :=
  .next (s.setRegFlag x (subByte (s.reg x) (s.reg y)) (noBorrow (s.reg x) (s.reg y))).advance

/-- shift-right (R189): `V[y]` is not read. -/
def execShiftRight (x _y : RegIdx) (s : State) : Result :=
  .next (s.setRegFlag x (shrByte (s.reg x)) (shrOut (s.reg x))).advance

/-- reverse-sub (R190). -/
def execReverseSub (x y : RegIdx) (s : State) : Result :=
  .next (s.setRegFlag x (subByte (s.reg y) (s.reg x)) (noBorrow (s.reg y) (s.reg x))).advance

/-- shift-left (R191): `V[y]` is not read. -/
def execShiftLeft (x _y : RegIdx) (s : State) : Result :=
  .next (s.setRegFlag x (shlByte (s.reg x)) (shlOut (s.reg x))).advance

/-- random (R192): the generator advances on every execution, whatever `nn`. -/
def execRandom (x : RegIdx) (nn : Byte) (s : State) : Result :=
  .next (s.randomByte.2.setReg x (s.randomByte.1 &&& nn)).advance

end Sys2Proof.Machine
end

