-- ==== Sys2Proof/Machine/ControlFlow.lean ====
section
/-! DEFINITION. Control flow (spec 40_control_flow.md). During a handler `pc` is the address of the
instruction (R34); each meaning writes its own next `pc` and nothing is added afterwards (R324). -/

namespace Sys2Proof.Machine

/-- explicit-halt (R140). -/
def execExplicitHalt (s : State) : Result := .next s.haltNormally

/-- return (R143). -/
def execRet (s : State) : Result :=
  match s.pop with
  | some (target, t) => .next (t.jumpTo target)
  | none => .next (s.raise .stackUnderflow s.pc)

/-- jump (R144). -/
def execJump (nnn : Addr12) (s : State) : Result := .next (s.jumpTo (zext16 nnn))

/-- call (R145): the pushed address is that of the instruction after the call. -/
def execCall (nnn : Addr12) (s : State) : Result :=
  match s.push (s.pc + 2) with
  | some t => .next (t.jumpTo (zext16 nnn))
  | none => .next (s.raise .stackOverflow s.pc)

/-- skip-if-eq-imm (R146). -/
def execSkipIfEqImm (x : RegIdx) (nn : Byte) (s : State) : Result := .next (s.skipIf (s.reg x == nn))

/-- skip-if-ne-imm (R147). -/
def execSkipIfNeImm (x : RegIdx) (nn : Byte) (s : State) : Result := .next (s.skipIf (s.reg x != nn))

/-- skip-if-eq-reg (R148). -/
def execSkipIfEqReg (x y : RegIdx) (s : State) : Result := .next (s.skipIf (s.reg x == s.reg y))

/-- skip-if-ne-reg (R149). -/
def execSkipIfNeReg (x y : RegIdx) (s : State) : Result := .next (s.skipIf (s.reg x != s.reg y))

/-- jump-indexed (R150): the sum is at most 0x10FE, so it does not wrap. -/
def execJumpIndexed (nnn : Addr12) (s : State) : Result :=
  .next (s.jumpTo (zext16 nnn + zext16 (s.reg 0)))

end Sys2Proof.Machine
end

