-- ==== Sys2Proof/Machine/Display.lean ====
section
/-! DEFINITION. The display: its cells (R37), the sprite draw (R270) and the two display instructions
(spec 43_display.md). -/

namespace Sys2Proof.Machine

/-- The pixel of column `c mod 64` and row `r mod 32`: coordinates wrap, not clip (R270). -/
def Display.pixel (d : Display) (c r : Nat) : Bool :=
  (d[r % 32]'(Nat.mod_lt _ (by decide)))[c % 64]'(Nat.mod_lt _ (by decide))

/-- The cell `display[p]` of R37, row-major. -/
def Display.cell (d : Display) (p : Nat) : Bool := Display.pixel d p (p / 64)

/-- The display with one pixel flipped, coordinates wrapping. -/
def Display.flip (d : Display) (c r : Nat) : Display :=
  let row := d[r % 32]'(Nat.mod_lt _ (by decide))
  d.set (r % 32)
    (row.set (c % 64) (!Display.pixel d c r) (Nat.mod_lt _ (by decide)))
    (Nat.mod_lt _ (by decide))

/-- All pixels 0 (R271). -/
def Display.clear : Display := Vector.replicate 32 (Vector.replicate 64 false)

/-- A draw in progress: the display so far and the collision flag so far. -/
structure Blit where
  /-- The display so far. -/
  display : Display
  /-- Whether a pixel has gone from 1 to 0. -/
  collision : Bool
  deriving DecidableEq, Repr

/-- One pixel of a sprite: a 1 bit flips the pixel under it, and the collision flag is set when that
pixel was 1; a 0 bit does nothing (R270, R272). -/
def Blit.dot (b : Blit) (bit : Bool) (c r : Nat) : Blit :=
  if bit then
    { display := b.display.flip c r, collision := b.collision || b.display.pixel c r }
  else b

/-- One row of a sprite at column `x0` and row `r`: the pixel at column offset `c` is bit `7 - c` of the
byte, so the most significant bit is leftmost (R270). -/
def Blit.row (b : Blit) (byte : Byte) (x0 r : Nat) : Blit :=
  [0, 1, 2, 3, 4, 5, 6, 7].foldl (fun b c => b.dot (byte.getLsbD (7 - c)) (x0 + c) r) b

/-- The rows of a sprite, one below the other from row `y0`. -/
def Blit.rows : Blit → List Byte → Nat → Nat → Blit
  | b, [], _, _ => b
  | b, byte :: bytes, x0, y0 => Blit.rows (b.row byte x0 y0) bytes x0 (y0 + 1)

/-- clear-display (R271): `draw_pending` is set even when the display was clear. -/
def execClearDisplay (s : State) : Result :=
  .next { s with display := Display.clear, drawPending := true }.advance

/-- draw-sprite (R272): the sprite's bytes stand at `I`; the flag is the last write. -/
def execDrawSprite (x y : RegIdx) (n : Fin 16) (s : State) : Result :=
  let b := Blit.rows { display := s.display, collision := false } (s.readData n.val)
    (s.spriteCol x) (s.spriteRow y)
  .next (s.withData n.val
    ({ s with display := b.display, drawPending := true }.setReg vF (flagByte b.collision)).advance)

end Sys2Proof.Machine
end

