-- ==== Sys2Proof/Machine/IndexMemory.lean ====
section
/-! DEFINITION. The index register and the moves between registers and memory (spec
42_index_memory.md). No access changes `I` (R230); the range check comes before any effect (R80). -/

namespace Sys2Proof.Machine

/-- load-index (R231). -/
def execLoadIndex (nnn : Addr12) (s : State) : Result := .next { s with i := zext16 nnn }.advance

/-- add-to-index (R232): modulo 65536, no flag. -/
def execAddToIndex (x : RegIdx) (s : State) : Result :=
  .next { s with i := s.i + zext16 (s.reg x) }.advance

/-- sprite-address (R233): all 8 bits of `V[x]` count, at most 0x54B. -/
def execSpriteAddress (x : RegIdx) (s : State) : Result :=
  .next { s with i := BitVec.ofNat 16 (0x50 + (s.reg x).toNat * 5) }.advance

/-- store-bcd (R234). -/
def execStoreBcd (x : RegIdx) (s : State) : Result :=
  .next (s.withData 3 (s.writeData (bcdDigits (s.reg x))).advance)

/-- store-registers (R235): `V[0]` to `V[x]`, both included. -/
def execStoreRegisters (x : RegIdx) (s : State) : Result :=
  .next (s.withData (x.val + 1) (s.writeData (s.v.toList.take (x.val + 1))).advance)

/-- load-registers (R236): `V[0]` to `V[x]`, both included. -/
def execLoadRegisters (x : RegIdx) (s : State) : Result :=
  .next (s.withData (x.val + 1) { s with v := setRegsFrom s.v 0 (s.readData (x.val + 1)) }.advance)

end Sys2Proof.Machine
end

