-- ==== Sys2Proof/Machine/KeysTimers.lean ====
section
/-! DEFINITION. Keys and timers (spec 44_keys_timers.md). -/

namespace Sys2Proof.Machine

/-- skip-if-key-down (R291). -/
def execSkipIfKeyDown (x : RegIdx) (s : State) : Result := .next (s.skipOnKey x fun down => down)

/-- skip-if-key-up (R292). -/
def execSkipIfKeyUp (x : RegIdx) (s : State) : Result := .next (s.skipOnKey x fun down => !down)

/-- get-delay (R293): the timer before this step's tick. -/
def execGetDelay (x : RegIdx) (s : State) : Result := .next (s.setReg x s.delayTimer).advance

/-- wait-for-key (R294): the machine is suspended, `pc` stays until the wait resolves. -/
def execWaitForKey (x : RegIdx) (s : State) : Result :=
  .next { s with awaitingKey := true, keyTarget := x }

/-- set-delay (R295): the tick at the end of the step counts the new value down. -/
def execSetDelay (x : RegIdx) (s : State) : Result := .next { s with delayTimer := s.reg x }.advance

/-- set-sound (R296). -/
def execSetSound (x : RegIdx) (s : State) : Result := .next { s with soundTimer := s.reg x }.advance

end Sys2Proof.Machine
end

