-- ==== Sys2Proof/Machine/System.lean ====
section
/-! DEFINITION. The fallback handler of decode (spec 60_exceptions.md R331). -/

namespace Sys2Proof.Machine

/-- unknown-opcode (R331): raises UnknownOpcode with the raw instruction; `pc` stays. -/
def execUnknownOpcode (w : Word) (s : State) : Result := .next (s.raise .unknownOpcode w)

end Sys2Proof.Machine
end

