-- ==== Sys2Proof/Machine/Dispatch.lean ====
section
/-! DEFINITION. Execute: one arm per instruction, each one call of its meaning (spec R2, R105). -/

namespace Sys2Proof.Machine

/-- The handler an instruction selects, run on the machine (R323). It is the handler alone: the key
sample, the halted and key-wait states and the timer tick belong to the step (log entry 16). -/
def exec (i : Instr) (s : State) : Host.Outcome State Fault Refusal :=
  match i with
  | .explicitHalt => Sys2Proof.Machine.execExplicitHalt s
  | .clearDisplay => Sys2Proof.Machine.execClearDisplay s
  | .ret => Sys2Proof.Machine.execRet s
  | .jump nnn => Sys2Proof.Machine.execJump nnn s
  | .call nnn => Sys2Proof.Machine.execCall nnn s
  | .skipIfEqImm x nn => Sys2Proof.Machine.execSkipIfEqImm x nn s
  | .skipIfNeImm x nn => Sys2Proof.Machine.execSkipIfNeImm x nn s
  | .skipIfEqReg x y => Sys2Proof.Machine.execSkipIfEqReg x y s
  | .loadImm x nn => Sys2Proof.Machine.execLoadImm x nn s
  | .addImm x nn => Sys2Proof.Machine.execAddImm x nn s
  | .move x y => Sys2Proof.Machine.execMove x y s
  | .or x y => Sys2Proof.Machine.execOr x y s
  | .and x y => Sys2Proof.Machine.execAnd x y s
  | .xor x y => Sys2Proof.Machine.execXor x y s
  | .addWithCarry x y => Sys2Proof.Machine.execAddWithCarry x y s
  | .subWithBorrow x y => Sys2Proof.Machine.execSubWithBorrow x y s
  | .shiftRight x y => Sys2Proof.Machine.execShiftRight x y s
  | .reverseSub x y => Sys2Proof.Machine.execReverseSub x y s
  | .shiftLeft x y => Sys2Proof.Machine.execShiftLeft x y s
  | .skipIfNeReg x y => Sys2Proof.Machine.execSkipIfNeReg x y s
  | .loadIndex nnn => Sys2Proof.Machine.execLoadIndex nnn s
  | .jumpIndexed nnn => Sys2Proof.Machine.execJumpIndexed nnn s
  | .random x nn => Sys2Proof.Machine.execRandom x nn s
  | .drawSprite x y n => Sys2Proof.Machine.execDrawSprite x y n s
  | .skipIfKeyDown x => Sys2Proof.Machine.execSkipIfKeyDown x s
  | .skipIfKeyUp x => Sys2Proof.Machine.execSkipIfKeyUp x s
  | .getDelay x => Sys2Proof.Machine.execGetDelay x s
  | .waitForKey x => Sys2Proof.Machine.execWaitForKey x s
  | .setDelay x => Sys2Proof.Machine.execSetDelay x s
  | .setSound x => Sys2Proof.Machine.execSetSound x s
  | .addToIndex x => Sys2Proof.Machine.execAddToIndex x s
  | .spriteAddress x => Sys2Proof.Machine.execSpriteAddress x s
  | .storeBcd x => Sys2Proof.Machine.execStoreBcd x s
  | .storeRegisters x => Sys2Proof.Machine.execStoreRegisters x s
  | .loadRegisters x => Sys2Proof.Machine.execLoadRegisters x s
  | .unknownOpcode w => Sys2Proof.Machine.execUnknownOpcode w s

end Sys2Proof.Machine
end

