-- ==== Sys2Proof/WellFormed.lean ====
section
/-! DEFINITION. Which terms of `Instr` are instructions of the machine. The types of the fields
admit only values the encoding has, so the one check is on unknown-opcode: the word it carries must
be one that no row of the opcode table selects (R106). -/

namespace Sys2Proof

/-- The unknown space of R106, high nibble by high nibble: the words that select unknown-opcode. -/
def unknownWord (w : Word) : Bool :=
  let op := w.toNat / 0x1000
  let n := w.toNat % 0x10
  let nn := w.toNat % 0x100
  if op = 0x0 then !([0x0000, 0x00E0, 0x00EE].contains w.toNat)
  else if op = 0x5 then n != 0
  else if op = 0x8 then !([0, 1, 2, 3, 4, 5, 6, 7, 0xE].contains n)
  else if op = 0x9 then n != 0
  else if op = 0xE then !([0x9E, 0xA1].contains nn)
  else if op = 0xF then !([0x07, 0x0A, 0x15, 0x18, 0x1E, 0x29, 0x33, 0x55, 0x65].contains nn)
  else false

/-- A well-formed instruction: an unknown-opcode term carries a word of the unknown space;
every other term is well-formed by the types of its fields (R102, R106). -/
def Instr.wellFormed : Instr → Bool
  | .unknownOpcode w => unknownWord w
  | .explicitHalt | .clearDisplay | .ret | .jump _ | .call _ | .skipIfEqImm _ _ | .skipIfNeImm _ _
  | .skipIfEqReg _ _ | .loadImm _ _ | .addImm _ _ | .move _ _ | .or _ _ | .and _ _ | .xor _ _
  | .addWithCarry _ _ | .subWithBorrow _ _ | .shiftRight _ _ | .reverseSub _ _ | .shiftLeft _ _
  | .skipIfNeReg _ _ | .loadIndex _ | .jumpIndexed _ | .random _ _ | .drawSprite _ _ _
  | .skipIfKeyDown _ | .skipIfKeyUp _ | .getDelay _ | .waitForKey _ | .setDelay _ | .setSound _
  | .addToIndex _ | .spriteAddress _ | .storeBcd _ | .storeRegisters _ | .loadRegisters _ => true

end Sys2Proof
end

