-- ==== Sys2Proof/Decode.lean ====
section
/-! DEFINITION. The instruction_dispatcher (R103 to R107): fields, decode, and the encoder written
from the same rows of R105. -/

namespace Sys2Proof

/-! ### Fields (R101) -/

/-- The field of `width` bits from bit `lo` up, which R7 writes `v[hi:lo]` with `hi = lo + width - 1`. -/
def bits (v : Word) (lo width : Nat) : BitVec width := v.extractLsb' lo width

/-- `op = instr[15:12]`. -/
def opField (w : Word) : Nat := (bits w 12 4).toNat

/-- `x = instr[11:8]`, a register index. -/
def xField (w : Word) : RegIdx := (bits w 8 4).toFin

/-- `y = instr[7:4]`, a register index. -/
def yField (w : Word) : RegIdx := (bits w 4 4).toFin

/-- `n = instr[3:0]`, a row count or sub-opcode. -/
def nField (w : Word) : Fin 16 := (bits w 0 4).toFin

/-- `nn = instr[7:0]`, an immediate or sub-opcode. -/
def nnField (w : Word) : Byte := bits w 0 8

/-- `nnn = instr[11:0]`, an address. -/
def nnnField (w : Word) : Addr12 := bits w 0 12

/-! ### Decode (R104) -/

/-- Step 3 of R104: `8xyN`, on the low nibble. -/
def decodeAlu (w : Word) : Instr :=
  let x := xField w
  let y := yField w
  match (nField w).val with
  | 0x0 => .move x y
  | 0x1 => .or x y
  | 0x2 => .and x y
  | 0x3 => .xor x y
  | 0x4 => .addWithCarry x y
  | 0x5 => .subWithBorrow x y
  | 0x6 => .shiftRight x y
  | 0x7 => .reverseSub x y
  | 0xE => .shiftLeft x y
  | _ => .unknownOpcode w

/-- Step 4 of R104: `ExNN`, on the low byte. -/
def decodeKey (w : Word) : Instr :=
  let nn := (nnField w).toNat
  if nn = 0x9E then .skipIfKeyDown (xField w)
  else if nn = 0xA1 then .skipIfKeyUp (xField w)
  else .unknownOpcode w

/-- Step 5 of R104: `FxNN`, on the low byte. -/
def decodeMisc (w : Word) : Instr :=
  let x := xField w
  let nn := (nnField w).toNat
  if nn = 0x07 then .getDelay x
  else if nn = 0x0A then .waitForKey x
  else if nn = 0x15 then .setDelay x
  else if nn = 0x18 then .setSound x
  else if nn = 0x1E then .addToIndex x
  else if nn = 0x29 then .spriteAddress x
  else if nn = 0x33 then .storeBcd x
  else if nn = 0x55 then .storeRegisters x
  else if nn = 0x65 then .loadRegisters x
  else .unknownOpcode w

/-- Step 1 of R104 (the three exact words), with R107: every other `0nnn` is unknown. -/
def decodeZero (w : Word) : Instr :=
  if w = 0x0000 then .explicitHalt
  else if w = 0x00E0 then .clearDisplay
  else if w = 0x00EE then .ret
  else .unknownOpcode w

/-- Decode: total on all 65536 words, reads nothing but the word; a word no row matches selects
unknown-opcode, which carries it (R103, R104). -/
def decodeWord (w : Word) : Instr :=
  match opField w with
  | 0x0 => decodeZero w
  | 0x1 => .jump (nnnField w)
  | 0x2 => .call (nnnField w)
  | 0x3 => .skipIfEqImm (xField w) (nnField w)
  | 0x4 => .skipIfNeImm (xField w) (nnField w)
  | 0x5 => if (nField w).val = 0 then .skipIfEqReg (xField w) (yField w) else .unknownOpcode w
  | 0x6 => .loadImm (xField w) (nnField w)
  | 0x7 => .addImm (xField w) (nnField w)
  | 0x8 => decodeAlu w
  | 0x9 => if (nField w).val = 0 then .skipIfNeReg (xField w) (yField w) else .unknownOpcode w
  | 0xA => .loadIndex (nnnField w)
  | 0xB => .jumpIndexed (nnnField w)
  | 0xC => .random (xField w) (nnField w)
  | 0xD => .drawSprite (xField w) (yField w) (nField w)
  | 0xE => decodeKey w
  | 0xF => decodeMisc w
  | _ => .unknownOpcode w

/-! ### Bytes (R77, R78) -/

/-- A word from its two bytes, big-endian: the byte at the lower address is bits 15..8 (R77, R78). -/
def beWord (hi lo : Byte) : Word := hi ++ lo

/-- The two bytes of a word in the order they stand in memory (R78). -/
def beBytes (w : Word) : List Byte := [bits w 8 8, bits w 0 8]

/-- Why bytes give no instruction word. Decode itself never fails (R103). -/
inductive DecodeError where
  /-- Fewer than two bytes: there is no whole instruction word (R100). -/
  | truncated
  deriving DecidableEq, Repr

/-- Decode the instruction at the front of a byte stream, with the bytes after it; every
instruction is two bytes (R100). -/
def decodeBytes : List Byte → Except DecodeError (Instr × List Byte)
  | hi :: lo :: rest => .ok (decodeWord (beWord hi lo), rest)
  | _ => .error .truncated

/-- The instruction the decoder reads from the word the opcode table numbers `w`: the bits above
`nbits` are 0, the word is laid out big-endian, and the bytes are decoded. -/
def decodeTableWord (nbits w : Nat) : Option Instr :=
  match decodeBytes (beBytes (BitVec.ofNat 16 (w % 2 ^ nbits))) with
  | .ok (i, _) => some i
  | .error _ => none

/-! ### Encode (R105) -/

/-- A register index, or a row count, as the 4 bits of its field. -/
def nibble (x : Fin 16) : BitVec 4 := BitVec.ofFin x

/-- The word of an instruction with a 12-bit address field. -/
def wordNnn (op : BitVec 4) (nnn : Addr12) : Word := op ++ nnn

/-- The word of an instruction with a register field and a low byte. -/
def wordXnn (op : BitVec 4) (x : RegIdx) (nn : Byte) : Word := (op ++ nibble x) ++ nn

/-- The word of an instruction with two register fields and a low nibble. -/
def wordXyn (op : BitVec 4) (x y : RegIdx) (n : BitVec 4) : Word := (op ++ nibble x) ++ (nibble y ++ n)

/-- The word of an instruction, from the patterns of R105. -/
def encode : Instr → Word
  | .explicitHalt => 0x0000
  | .clearDisplay => 0x00E0
  | .ret => 0x00EE
  | .jump nnn => wordNnn 0x1 nnn
  | .call nnn => wordNnn 0x2 nnn
  | .skipIfEqImm x nn => wordXnn 0x3 x nn
  | .skipIfNeImm x nn => wordXnn 0x4 x nn
  | .skipIfEqReg x y => wordXyn 0x5 x y 0x0
  | .loadImm x nn => wordXnn 0x6 x nn
  | .addImm x nn => wordXnn 0x7 x nn
  | .move x y => wordXyn 0x8 x y 0x0
  | .or x y => wordXyn 0x8 x y 0x1
  | .and x y => wordXyn 0x8 x y 0x2
  | .xor x y => wordXyn 0x8 x y 0x3
  | .addWithCarry x y => wordXyn 0x8 x y 0x4
  | .subWithBorrow x y => wordXyn 0x8 x y 0x5
  | .shiftRight x y => wordXyn 0x8 x y 0x6
  | .reverseSub x y => wordXyn 0x8 x y 0x7
  | .shiftLeft x y => wordXyn 0x8 x y 0xE
  | .skipIfNeReg x y => wordXyn 0x9 x y 0x0
  | .loadIndex nnn => wordNnn 0xA nnn
  | .jumpIndexed nnn => wordNnn 0xB nnn
  | .random x nn => wordXnn 0xC x nn
  | .drawSprite x y n => wordXyn 0xD x y (nibble n)
  | .skipIfKeyDown x => wordXnn 0xE x 0x9E
  | .skipIfKeyUp x => wordXnn 0xE x 0xA1
  | .getDelay x => wordXnn 0xF x 0x07
  | .waitForKey x => wordXnn 0xF x 0x0A
  | .setDelay x => wordXnn 0xF x 0x15
  | .setSound x => wordXnn 0xF x 0x18
  | .addToIndex x => wordXnn 0xF x 0x1E
  | .spriteAddress x => wordXnn 0xF x 0x29
  | .storeBcd x => wordXnn 0xF x 0x33
  | .storeRegisters x => wordXnn 0xF x 0x55
  | .loadRegisters x => wordXnn 0xF x 0x65
  | .unknownOpcode w => w

/-- The two bytes of an instruction as they stand in memory (R78, R100). -/
def encodeBytes (i : Instr) : List Byte := beBytes (encode i)

end Sys2Proof
end

