-- ==== Sys2Proof/Machine/Driver.lean ====
section
/-! DEFINITION. The parts of a step around the handler (spec 60_exceptions.md R320 to R327): fetch, the
key-wait branch, the end of a step. Machine/Step.lean only puts them together with `exec`. -/

namespace Sys2Proof.Machine

/-- `Fetch()`: the big-endian word at `pc`; none where `pc + 1 >= 4096`, in unbounded arithmetic. Fetch
changes nothing (R77). -/
def State.fetch (s : State) : Option Word :=
  if s.pc.toNat + 1 ≥ 4096 then none
  else some (beWord (s.mem.read s.pc.toNat) (s.mem.read (s.pc.toNat + 1)))

/-- The end of a running step that began in `s`: `prev_keys <- sample`, the keys at its start (R321,
R325). -/
def State.recordSample (s t : State) : State := { t with prevKeys := s.keys }

/-- The key-wait branch (R322): the wait resolves on a down edge, and nothing else happens. -/
def State.keyWait (s : State) : State :=
  s.recordSample <|
    match selectKey (keyEdges s.keys s.prevKeys) with
    | some k => { s.setReg s.keyTarget (keyCode k) with awaitingKey := false }.advance
    | none => s

/-- What a step is to do. -/
inductive StepPlan where
  /-- The step runs no handler; the machine after it. -/
  | done (t : State)
  /-- The step runs this instruction's handler. -/
  | execute (i : Instr)
  deriving DecidableEq, Repr

/-- The beginning of a step: a halted machine does nothing (R320), a waiting one polls the keys (R322),
a fetch past the end of memory raises `Error(AddressOutOfRange, pc)` (R77), and otherwise the fetched
word is decoded (R323). -/
def State.plan (s : State) : StepPlan :=
  if s.halted then .done s
  else if s.awaitingKey then .done s.keyWait
  else
    match s.fetch with
    | none => .done (s.recordSample (s.raise .addressOutOfRange s.pc))
    | some w => .execute (decodeWord w)

/-- The end of a normal step that began in `s` and whose handler left `t`: the timers tick unless the
handler raised an error, and the key sample is recorded (R323, R325, R327). -/
def State.finish (s t : State) : State := s.recordSample (if t.raised then t else t.tick)

end Sys2Proof.Machine
end

