-- ==== Sys2Proof/Machine/Step.lean ====
section
/-! DEFINITION. One logical step (spec R320 to R323), and the placing of an instruction where the next
step fetches it. -/

namespace Sys2Proof.Machine

/-- One logical step of the machine (R320, R323). -/
def step (s : State) : Host.Outcome State Fault Refusal :=
  match s.plan with
  | .done t => .next t
  | .execute i =>
    match exec i s with
    | .next t => .next (s.finish t)
    | .fault r => .fault r
    | .refused r => .refused r

/-- The machine with one instruction word where the next step fetches it, running, not waiting for a key
and with a `pc` a word can be fetched at, so that the very next step runs that instruction. On a machine
that is so already only the two bytes at `pc` change (log entry 9). -/
def State.withFetchWord (s : State) (nbits w : Nat) : State :=
  let word : Word := BitVec.ofNat 16 (w % 2 ^ nbits)
  let pc : Word := if s.pc.toNat + 1 < 4096 then s.pc else 0x200
  { s with
    pc := pc
    mem := s.mem.writeBytes pc.toNat (beBytes word)
    halted := false
    awaitingKey := false
    stop := if s.halted then .running else s.stop }

end Sys2Proof.Machine
end

