-- ==== Sys2Proof/Machine/HostActions.lean ====
section
/-! DEFINITION. The host interface (spec 60_exceptions.md R326, R329, R336, R337, R340): what the host can
do between two steps, and what the block answers. -/

namespace Sys2Proof.Machine

/-! ### What the block shows -/

/-- The result of a step (R326). -/
inductive StepResult where
  /-- The machine runs. -/
  | ok
  /-- The machine is halted by explicit-halt. -/
  | halt
  /-- An error has halted the machine. -/
  | error (kind : ErrorKind) (ctx : Word)
  deriving DecidableEq, Repr

/-- The result a step that ends in this state returns: the value of `stop` (R326). -/
def State.result (s : State) : StepResult :=
  match s.stop with
  | .running => .ok
  | .halt => .halt
  | .error kind ctx => .error kind ctx

/-- The numeric code of an error kind (R329). -/
def errorCode : ErrorKind → BitVec 3
  | .addressOutOfRange => 1
  | .unknownOpcode => 2
  | .stackOverflow => 3
  | .stackUnderflow => 4
  | .dataAddressOutOfRange => 5
  | .keyIndexOutOfRange => 6

/-- `stop_code`: 0 is no error (R329). -/
def stopCode : Stop → BitVec 3
  | .running | .halt => 0
  | .error kind _ => errorCode kind

/-- `stop_ctx`: the context of the error; none where there is no error (log entry 15). -/
def stopCtx : Stop → Option Word
  | .running | .halt => none
  | .error _ ctx => some ctx

/-- `sound_active` (R340). -/
def State.soundActive (s : State) : Bool := s.soundTimer != 0

/-- What `ReadStatus` returns (R336). -/
structure Status where
  /-- `halted`. -/
  halted : Bool
  /-- `stop`. -/
  stop : Stop
  /-- The code of `stop`. -/
  code : BitVec 3
  /-- The context of `stop`, where it is an error. -/
  ctx : Option Word
  /-- `awaiting_key`. -/
  awaitingKey : Bool
  /-- `draw_pending`. -/
  drawPending : Bool
  /-- `sound_active`. -/
  soundActive : Bool
  deriving DecidableEq, Repr

/-- The status of the machine (R336). -/
def State.status (s : State) : Status where
  halted := s.halted
  stop := s.stop
  code := stopCode s.stop
  ctx := stopCtx s.stop
  awaitingKey := s.awaitingKey
  drawPending := s.drawPending
  soundActive := s.soundActive

/-! ### What the host does to the machine -/

/-- `LoadRom` on the machine: the bytes from 0x200 on (R336, R383). -/
def State.loadRom (s : State) (rom : List Byte) : State :=
  { s with mem := s.mem.writeBytes 0x200 rom }

/-- `SetKeys` (R336, R339). -/
def State.setKeys (s : State) (k : KeySet) : State := { s with keys := k }

/-- `AckDraw`, the only thing that clears `draw_pending` (R41, R336). -/
def State.ackDraw (s : State) : State := { s with drawPending := false }

/-- A constructed block as the host drives it: the machine, and whether a step has been taken, which is
what `LoadRom` depends on (R336; log entry 10). -/
structure Block where
  /-- Whether the first step has been taken. -/
  started : Bool
  /-- The machine. -/
  machine : State
  deriving DecidableEq, Repr

/-- `Construct` with a seed (R336, R380). -/
def Block.construct (seed : Nat) : Block := { started := false, machine := State.construct seed }

/-- The host's actions after `Construct` (R336). -/
inductive HostAction where
  /-- Load a ROM. -/
  | loadRom (rom : List Byte)
  /-- Set the keys. -/
  | setKeys (k : KeySet)
  /-- Acknowledge the display. -/
  | ackDraw
  /-- Read the display. -/
  | readDisplay
  /-- Read the status. -/
  | readStatus
  /-- Run one step. -/
  | step
  deriving DecidableEq, Repr

/-- What the block answers. -/
inductive HostReply where
  /-- Done. -/
  | done
  /-- The ROM is too long or comes after the first step; nothing was done (R336). -/
  | romRefused
  /-- The display buffer. -/
  | display (d : Display)
  /-- The status. -/
  | status (st : Status)
  /-- The result of a step. -/
  | stepped (r : StepResult)
  /-- The step had no next state. It cannot happen: no step of this machine is without one. -/
  | notStepped
  deriving DecidableEq, Repr

/-- One action of the host, atomic with respect to steps (R336). -/
def Block.act (b : Block) : HostAction → HostReply × Block
  | .loadRom rom =>
    if b.started || decide (Config.romMax < rom.length) then (.romRefused, b)
    else (.done, { b with machine := b.machine.loadRom rom })
  | .setKeys k => (.done, { b with machine := b.machine.setKeys k })
  | .ackDraw => (.done, { b with machine := b.machine.ackDraw })
  | .readDisplay => (.display b.machine.display, b)
  | .readStatus => (.status b.machine.status, b)
  | .step =>
    match Sys2Proof.Machine.step b.machine with
    | .next t => (.stepped t.result, { started := true, machine := t })
    | .fault _ | .refused _ => (.notStepped, b)

end Sys2Proof.Machine
end

