-- ==== Sys2Proof/Safety.lean ====
section
/-! DEFINITION. What counts as a sound state and as a safe run, in the terms the statements use. -/

namespace Sys2Proof.Safety

open Sys2Proof.Machine

/-- The invariant of the machine: what every state of a run satisfies. -/
structure Inv (s : State) : Prop where
  /-- Memory keeps its canonical form. -/
  memory : s.mem.wf
  /-- `stop = Running` exactly when `halted = false` (R45). -/
  stopRunning : s.stop = .running ↔ s.halted = false
  /-- Every value `pc` takes is at most 0x10FE (R34). -/
  pcBound : s.pc.toNat ≤ 0x10FE
  /-- A machine that waits for a key stands at an instruction it has fetched (R294). -/
  waitPc : s.awaitingKey = true → s.pc.toNat ≤ 0xFFE
  /-- Every stack slot holds 0 or the address after a call (R35, R145). -/
  stackBound : ∀ k : Fin 16, s.stack[k].toNat ≤ 0x1000
  /-- A halted machine does not wait for a key (R322, R344). -/
  haltedNotWaiting : s.halted = true → s.awaitingKey = false

/-- The machine runs: neither halted nor waiting for a key, so that its next step is a normal one
(R323). -/
def Running (s : State) : Prop := s.halted = false ∧ s.awaitingKey = false

/-- No error has halted the machine (R329). -/
def NoError (s : State) : Prop := ∀ kind ctx, s.stop ≠ .error kind ctx

/-- The instruction the next normal step of the machine runs is `i`: the word at `pc` is inside memory
and decodes to it (R77, R103). -/
def AtInstr (s : State) (i : Instr) : Prop :=
  s.pc.toNat + 1 < 4096 ∧
    decodeWord (beWord (s.mem.read s.pc.toNat) (s.mem.read (s.pc.toNat + 1))) = i

/-- A safe run of `n` steps: each of them has a next state, and no error halts the machine. -/
def SafeFor : Nat → State → Prop
  | 0, s => NoError s
  | n + 1, s => NoError s ∧ ∃ t, step s = .next t ∧ SafeFor n t

end Sys2Proof.Safety
end

