-- ==== Sys2Proof/Certificates/Slice0/Obligations.lean ====
section
/-! DEFINITION. The statements for the provers, each from the rules of spec/ its docstring names. -/

/-! ### Terms the statements use -/

namespace Sys2Proof.Statements

open Sys2Proof.Machine Sys2Proof.Safety

/-- Field `x`, bits 11..8 (R101), by division. -/
def fx (w : Word) : RegIdx := ⟨w.toNat / 0x100 % 0x10, Nat.mod_lt _ (by decide)⟩

/-- Field `y`, bits 7..4 (R101). -/
def fy (w : Word) : RegIdx := ⟨w.toNat / 0x10 % 0x10, Nat.mod_lt _ (by decide)⟩

/-- Field `n`, bits 3..0 (R101). -/
def fn (w : Word) : Fin 16 := ⟨w.toNat % 0x10, Nat.mod_lt _ (by decide)⟩

/-- Field `nn`, bits 7..0 (R101). -/
def fnn (w : Word) : Byte := BitVec.ofNat 8 (w.toNat % 0x100)

/-- Field `nnn`, bits 11..0 (R101). -/
def fnnn (w : Word) : Addr12 := BitVec.ofNat 12 (w.toNat % 0x1000)

/-- A row of the table of R105: the words `w` with `w & mask == value` select it. -/
structure Row where
  /-- The mask. -/
  mask : Word
  /-- The match. -/
  value : Word
  /-- The instruction of a word that selects the row. -/
  instr : Word → Instr

/-- Whether a word selects a row. -/
def Row.selects (r : Row) (w : Word) : Bool := w &&& r.mask == r.value

/-- The 35 rows with the masks and matches of R105, in the precedence order of R104. -/
def rows : List Row :=
  [ ⟨0xFFFF, 0x0000, fun _ => .explicitHalt⟩,
    ⟨0xFFFF, 0x00E0, fun _ => .clearDisplay⟩,
    ⟨0xFFFF, 0x00EE, fun _ => .ret⟩,
    ⟨0xF000, 0x1000, fun w => .jump (fnnn w)⟩,
    ⟨0xF000, 0x2000, fun w => .call (fnnn w)⟩,
    ⟨0xF000, 0x3000, fun w => .skipIfEqImm (fx w) (fnn w)⟩,
    ⟨0xF000, 0x4000, fun w => .skipIfNeImm (fx w) (fnn w)⟩,
    ⟨0xF00F, 0x5000, fun w => .skipIfEqReg (fx w) (fy w)⟩,
    ⟨0xF000, 0x6000, fun w => .loadImm (fx w) (fnn w)⟩,
    ⟨0xF000, 0x7000, fun w => .addImm (fx w) (fnn w)⟩,
    ⟨0xF00F, 0x9000, fun w => .skipIfNeReg (fx w) (fy w)⟩,
    ⟨0xF000, 0xA000, fun w => .loadIndex (fnnn w)⟩,
    ⟨0xF000, 0xB000, fun w => .jumpIndexed (fnnn w)⟩,
    ⟨0xF000, 0xC000, fun w => .random (fx w) (fnn w)⟩,
    ⟨0xF000, 0xD000, fun w => .drawSprite (fx w) (fy w) (fn w)⟩ ] ++
  [ ⟨0xF00F, 0x8000, fun w => .move (fx w) (fy w)⟩,
    ⟨0xF00F, 0x8001, fun w => .or (fx w) (fy w)⟩,
    ⟨0xF00F, 0x8002, fun w => .and (fx w) (fy w)⟩,
    ⟨0xF00F, 0x8003, fun w => .xor (fx w) (fy w)⟩,
    ⟨0xF00F, 0x8004, fun w => .addWithCarry (fx w) (fy w)⟩,
    ⟨0xF00F, 0x8005, fun w => .subWithBorrow (fx w) (fy w)⟩,
    ⟨0xF00F, 0x8006, fun w => .shiftRight (fx w) (fy w)⟩,
    ⟨0xF00F, 0x8007, fun w => .reverseSub (fx w) (fy w)⟩,
    ⟨0xF00F, 0x800E, fun w => .shiftLeft (fx w) (fy w)⟩ ] ++
  [ ⟨0xF0FF, 0xE09E, fun w => .skipIfKeyDown (fx w)⟩,
    ⟨0xF0FF, 0xE0A1, fun w => .skipIfKeyUp (fx w)⟩,
    ⟨0xF0FF, 0xF007, fun w => .getDelay (fx w)⟩,
    ⟨0xF0FF, 0xF00A, fun w => .waitForKey (fx w)⟩,
    ⟨0xF0FF, 0xF015, fun w => .setDelay (fx w)⟩,
    ⟨0xF0FF, 0xF018, fun w => .setSound (fx w)⟩,
    ⟨0xF0FF, 0xF01E, fun w => .addToIndex (fx w)⟩,
    ⟨0xF0FF, 0xF029, fun w => .spriteAddress (fx w)⟩,
    ⟨0xF0FF, 0xF033, fun w => .storeBcd (fx w)⟩,
    ⟨0xF0FF, 0xF055, fun w => .storeRegisters (fx w)⟩,
    ⟨0xF0FF, 0xF065, fun w => .loadRegisters (fx w)⟩ ]

/-- The encoding of one row: every word the row selects decodes to its instruction. -/
def Encoded (mask value : Word) (instr : Word → Instr) : Prop :=
  ∀ w : Word, w &&& mask = value → decodeWord w = instr w

/-- What a flag-writing register operation with destination `x` leaves (R32): `VF` holds the flag, also
where `x` is `VF`; any other destination holds the result; no other register and nothing else changes
but `pc`. -/
def FlagWrite (s t : State) (x : RegIdx) (result : Nat) (flag : Prop) : Prop :=
  (flag → t.v[vF] = 1) ∧ (¬flag → t.v[vF] = 0) ∧ (x ≠ vF → t.v[x].toNat = result) ∧
    (∀ k : RegIdx, k ≠ x → k ≠ vF → t.v[k] = s.v[k]) ∧ t = { s with v := t.v, pc := s.pc + 2 }

/-- The state an error leaves (R330): `halted` and `stop` and nothing else. -/
def errorState (s : State) (kind : ErrorKind) (ctx : Word) : State :=
  { s with halted := true, stop := .error kind ctx }

/-- Whether a pixel of the display lies under a 1 bit of the sprite of draw-sprite: some bit `7 - dc` of
the byte at `I + dr` is 1 and wraps to column `c`, row `r` (R270, R272). -/
def Covered (s : State) (x y : RegIdx) (n : Fin 16) (c r : Nat) : Prop :=
  ∃ dc < 8, ∃ dr < n.val, (s.mem.read (s.dataAddr dr)).getLsbD (7 - dc) = true ∧
    (s.v[x].toNat % 64 + dc) % 64 = c ∧ (s.v[y].toNat % 32 + dr) % 32 = r

/-- The registers an instruction may write: its destinations and, for a flag writer, `VF` (R32). -/
def mayWrite : Instr → RegIdx → Prop
  | .loadImm x _, k | .addImm x _, k | .move x _, k | .or x _, k | .and x _, k | .xor x _, k
  | .random x _, k | .getDelay x, k => k = x
  | .addWithCarry x _, k | .subWithBorrow x _, k | .shiftRight x _, k | .reverseSub x _, k
  | .shiftLeft x _, k => k = x ∨ k = vF
  | .drawSprite _ _ _, k => k = vF
  | .loadRegisters x, k => k.val ≤ x.val
  | _, _ => False

/-- The addresses an instruction stores to (R81), by the model's own effective address. -/
def storesAt (s : State) : Instr → Nat → Prop
  | .storeBcd _, a => ∃ k < 3, a = s.dataAddr k
  | .storeRegisters x, a => ∃ k ≤ x.val, a = s.dataAddr k
  | _, _ => False

/-- How many bytes an instruction accesses through `I` (R80, R81). -/
def accessed : Instr → Nat
  | .drawSprite _ _ n => n.val
  | .storeBcd _ => 3
  | .storeRegisters x | .loadRegisters x => x.val + 1
  | _ => 0

/-- The byte at an address after a store: the digit, or the register, stored there (R234, R235), and the
byte as before where nothing is stored. -/
def byteAfter (s : State) (i : Instr) (a : Nat) : Byte :=
  match i with
  | .storeBcd x =>
    if a = s.dataAddr 0 then BitVec.ofNat 8 (s.v[x].toNat / 100)
    else if a = s.dataAddr 1 then BitVec.ofNat 8 (s.v[x].toNat / 10 % 10)
    else if a = s.dataAddr 2 then BitVec.ofNat 8 (s.v[x].toNat % 10)
    else s.mem.read a
  | .storeRegisters x =>
    if h : s.dataAddr 0 ≤ a ∧ a - s.dataAddr 0 ≤ x.val then s.v[a - s.dataAddr 0]'(by omega)
    else s.mem.read a
  | _ => s.mem.read a

/-- The number of each kind of error, by the table of R329. -/
def errorNumber : ErrorKind → Nat
  | .addressOutOfRange => 1
  | .unknownOpcode => 2
  | .stackOverflow => 3
  | .stackUnderflow => 4
  | .dataAddressOutOfRange => 5
  | .keyIndexOutOfRange => 6

/-- The next `pc` of an instruction that raises no error, by the table of R324: the jumps to their
targets, the skips by 4 where their condition holds, explicit-halt and wait-for-key nowhere, everything
else by 2. -/
def nextPc (s : State) : Instr → Nat
  | .skipIfEqImm x nn => if s.v[x] = nn then s.pc.toNat + 4 else s.pc.toNat + 2
  | .skipIfNeImm x nn => if s.v[x] ≠ nn then s.pc.toNat + 4 else s.pc.toNat + 2
  | .skipIfEqReg x y => if s.v[x] = s.v[y] then s.pc.toNat + 4 else s.pc.toNat + 2
  | .skipIfNeReg x y => if s.v[x] ≠ s.v[y] then s.pc.toNat + 4 else s.pc.toNat + 2
  | .skipIfKeyDown x => if s.keys.toList[s.v[x].toNat]? = some true then s.pc.toNat + 4 else s.pc.toNat + 2
  | .skipIfKeyUp x => if s.keys.toList[s.v[x].toNat]? = some false then s.pc.toNat + 4 else s.pc.toNat + 2
  | .jump nnn | .call nnn => nnn.toNat
  | .ret => ((s.stack.toList[s.sp.val - 1]?).getD 0).toNat
  | .jumpIndexed nnn => nnn.toNat + s.v[(0 : RegIdx)].toNat
  | .explicitHalt | .waitForKey _ | .unknownOpcode _ => s.pc.toNat
  | _ => s.pc.toNat + 2

/-- A timer one tick later (R327), on numbers: one less, never below 0. -/
def Ticked (before after : Byte) : Prop := after.toNat = before.toNat - 1

/-- The cause of each error in a step that starts in `s`, and its context (R329, R333): a fetch past the
end of memory; a word no rule matches; a call with 16 slots taken; a return with none; a data access
whose last address is above 0xFFF; a key number above 0x0F. -/
def ErrorCause (s : State) (ctx : Word) : ErrorKind → Prop
  | .addressOutOfRange => s.pc.toNat + 1 ≥ 4096 ∧ ctx = s.pc
  | .unknownOpcode => AtInstr s (.unknownOpcode ctx)
  | .stackOverflow => (∃ nnn, AtInstr s (.call nnn)) ∧ s.sp.val = 16 ∧ ctx = s.pc
  | .stackUnderflow => AtInstr s .ret ∧ s.sp.val = 0 ∧ ctx = s.pc
  | .dataAddressOutOfRange => ∃ i, AtInstr s i ∧ accessed i ≠ 0 ∧
      0xFFF < s.dataAddr (accessed i - 1) ∧ ctx = s.i
  | .keyIndexOutOfRange => ∃ x, (AtInstr s (.skipIfKeyDown x) ∨ AtInstr s (.skipIfKeyUp x)) ∧
      0x0F < s.v[x].toNat ∧ ctx.toNat = s.v[x].toNat

end Sys2Proof.Statements

/-! ### Decode and encode -/

section
open Sys2Proof Sys2Proof.Machine Sys2Proof.Safety Sys2Proof.Statements

/-- R104: decode is the first match of the precedence list, and unknown-opcode where none matches. -/
def Obligations.DecodeIsFirstMatchOfPrecedenceList : Prop :=
  ∀ w : Word, decodeWord w =
    match rows.find? (fun r => r.selects w) with
    | some r => r.instr w
    | none => .unknownOpcode w

/-- 30_encoding.md R105, its derived sentence: a word that selects a row decodes to that row's instruction,
whatever other rows there are, and no word selects two rows; so the rows may be tested in any order, and
where none matches the word is unknown-opcode. -/
def Obligations.TableRowsAreDisjoint : Prop :=
  (∀ r ∈ rows, ∀ w : Word, r.selects w = true → decodeWord w = r.instr w) ∧
  (∀ w : Word, (∀ r ∈ rows, r.selects w = false) → decodeWord w = .unknownOpcode w) ∧
  rows.Pairwise fun a b => ∀ w : Word, ¬(a.selects w = true ∧ b.selects w = true)

/-- 30_encoding.md R106, its derived count by high nibble: the words that decode to unknown-opcode are
exactly those of the unknown space, and every word decodes to a well-formed instruction. -/
def Obligations.UnknownOpcodeIsTheUnknownSpace : Prop :=
  ∀ w : Word, (decodeWord w).wellFormed = true ∧
    (decodeWord w = .unknownOpcode w ↔ unknownWord w = true) ∧
    (unknownWord w = true ↔ ∀ r ∈ rows, r.selects w = false)

/-- Decode and encode agree on every well-formed instruction, as a word and as bytes with others after
them (30_encoding.md R100, R104, R105; 20_memory.md R78). -/
def Obligations.DecodeInvertsEncode : Prop :=
  ∀ (i : Instr), i.wellFormed = true →
    decodeWord (encode i) = i ∧
      ∀ rest : List Byte, decodeBytes (encodeBytes i ++ rest) = .ok (i, rest)

/-- Every word is the encoding of the instruction it decodes to (30_encoding.md R103, R105). -/
def Obligations.EncodeInvertsDecode : Prop :=
  ∀ w : Word, encode (decodeWord w) = w

/-- Words written out from the patterns of R105 decode to their instructions (30_encoding.md R105,
95_test_vectors.md section 2). -/
def Obligations.SampleWordsDecodeAsWritten : Prop :=
  decodeWord 0x0000 = .explicitHalt ∧ decodeWord 0x00EE = .ret ∧ decodeWord 0x10E0 = .jump 0x0E0 ∧
    decodeWord 0x5120 = .skipIfEqReg 1 2 ∧ decodeWord 0x800E = .shiftLeft 0 0 ∧
    decodeWord 0xD12F = .drawSprite 1 2 15 ∧ decodeWord 0xE5A1 = .skipIfKeyUp 5 ∧
    decodeWord 0xFF65 = .loadRegisters 15 ∧ decodeWord 0x5121 = .unknownOpcode 0x5121

/-! ### Registers and arithmetic (41_alu.md) -/

/-- R181, R182: load-imm and add-imm, with their encodings; no flag, nothing else changes. -/
def Obligations.ImmediatesWriteTheirRegister : Prop :=
  Encoded 0xF000 0x6000 (fun w => .loadImm (fx w) (fnn w)) ∧
  Encoded 0xF000 0x7000 (fun w => .addImm (fx w) (fnn w)) ∧
  ∀ (x : RegIdx) (nn : Byte) (s : State),
    exec (.loadImm x nn) s = .next { s with v := s.v.set x nn, pc := s.pc + 2 } ∧
    exec (.addImm x nn) s = .next { s with
      v := s.v.set x (BitVec.ofNat 8 ((s.v[x].toNat + nn.toNat) % 256)), pc := s.pc + 2 }

/-- R183 to R186: move, or, and, xor, with their encodings; no flag, nothing else changes. -/
def Obligations.MovesAndLogicWriteTheirRegister : Prop :=
  Encoded 0xF00F 0x8000 (fun w => .move (fx w) (fy w)) ∧
  Encoded 0xF00F 0x8001 (fun w => .or (fx w) (fy w)) ∧
  Encoded 0xF00F 0x8002 (fun w => .and (fx w) (fy w)) ∧
  Encoded 0xF00F 0x8003 (fun w => .xor (fx w) (fy w)) ∧
  ∀ (x y : RegIdx) (s : State),
    exec (.move x y) s = .next { s with v := s.v.set x s.v[y], pc := s.pc + 2 } ∧
    exec (.or x y) s = .next { s with v := s.v.set x (s.v[x] ||| s.v[y]), pc := s.pc + 2 } ∧
    exec (.and x y) s = .next { s with v := s.v.set x (s.v[x] &&& s.v[y]), pc := s.pc + 2 } ∧
    exec (.xor x y) s = .next { s with v := s.v.set x (s.v[x] ^^^ s.v[y]), pc := s.pc + 2 }

/-- R187: add-with-carry, with its encoding. -/
def Obligations.AddWithCarryWritesSumAndCarry : Prop :=
  Encoded 0xF00F 0x8004 (fun w => .addWithCarry (fx w) (fy w)) ∧
  ∀ (x y : RegIdx) (s : State), ∃ t, exec (.addWithCarry x y) s = .next t ∧
    FlagWrite s t x ((s.v[x].toNat + s.v[y].toNat) % 256) (s.v[x].toNat + s.v[y].toNat ≥ 256)

/-- R188, R190: the two subtractions, with their encodings; the flag is 1 when no borrow occurs. -/
def Obligations.SubtractionsWriteDifferenceAndNoBorrow : Prop :=
  Encoded 0xF00F 0x8005 (fun w => .subWithBorrow (fx w) (fy w)) ∧
  Encoded 0xF00F 0x8007 (fun w => .reverseSub (fx w) (fy w)) ∧
  ∀ (x y : RegIdx) (s : State),
    (∃ t, exec (.subWithBorrow x y) s = .next t ∧
      FlagWrite s t x ((s.v[x].toNat + 256 - s.v[y].toNat) % 256) (s.v[x].toNat ≥ s.v[y].toNat)) ∧
    (∃ t, exec (.reverseSub x y) s = .next t ∧
      FlagWrite s t x ((s.v[y].toNat + 256 - s.v[x].toNat) % 256) (s.v[y].toNat ≥ s.v[x].toNat))

/-- R189, R191: the two shifts, with their encodings; the flag is the bit shifted out, and `V[y]` has no
part in either. -/
def Obligations.ShiftsWriteHalfOrDoubleAndBitOut : Prop :=
  Encoded 0xF00F 0x8006 (fun w => .shiftRight (fx w) (fy w)) ∧
  Encoded 0xF00F 0x800E (fun w => .shiftLeft (fx w) (fy w)) ∧
  ∀ (x y : RegIdx) (s : State),
    (∃ t, exec (.shiftRight x y) s = .next t ∧
      FlagWrite s t x (s.v[x].toNat / 2) (s.v[x].toNat % 2 = 1)) ∧
    (∃ t, exec (.shiftLeft x y) s = .next t ∧
      FlagWrite s t x (s.v[x].toNat * 2 % 256) (s.v[x].toNat / 128 = 1))

/-- random (41_alu.md R192, 92_eei_decisions.md D11): the generator's next byte, whatever it is, under
the mask; one byte is drawn at every execution, also when `nn = 0`. The numbering of the draws is the
model's representation of the generator's state, log entry 1. -/
def Obligations.RandomMasksOneDrawnByte : Prop :=
  Encoded 0xF000 0xC000 (fun w => .random (fx w) (fnn w)) ∧
  ∀ (x : RegIdx) (nn : Byte) (s : State), exec (.random x nn) s = .next { s with
    v := s.v.set x (Config.rngByte s.rngState.seed s.rngState.drawn &&& nn)
    rngState := { s.rngState with drawn := s.rngState.drawn + 1 }
    pc := s.pc + 2 }

/-! ### Index register and memory (42_index_memory.md) -/

/-- R231, R232, R233: load-index, add-to-index and sprite-address, with their encodings; no flag. -/
def Obligations.IndexInstructionsWriteI : Prop :=
  Encoded 0xF000 0xA000 (fun w => .loadIndex (fnnn w)) ∧
  Encoded 0xF0FF 0xF01E (fun w => .addToIndex (fx w)) ∧
  Encoded 0xF0FF 0xF029 (fun w => .spriteAddress (fx w)) ∧
  ∀ (nnn : Addr12) (x : RegIdx) (s : State),
    exec (.loadIndex nnn) s = .next { s with i := BitVec.ofNat 16 nnn.toNat, pc := s.pc + 2 } ∧
    exec (.addToIndex x) s = .next { s with
      i := BitVec.ofNat 16 ((s.i.toNat + s.v[x].toNat) % 65536), pc := s.pc + 2 } ∧
    exec (.spriteAddress x) s = .next { s with
      i := BitVec.ofNat 16 (0x50 + s.v[x].toNat * 5), pc := s.pc + 2 }

/-- store-bcd (42_index_memory.md R234): the three digits at `I`, `I+1`, `I+2` and no other byte, or the
error of 92_eei_decisions.md D5 with nothing else changed. -/
def Obligations.StoreBcdWritesThreeDigits : Prop :=
  ∀ (x : RegIdx) (s : State), s.mem.wf →
    (s.dataAddr 2 ≤ 0xFFF → ∃ t, exec (.storeBcd x) s = .next t ∧
      (t.mem.read (s.dataAddr 0)).toNat = s.v[x].toNat / 100 ∧
      (t.mem.read (s.dataAddr 1)).toNat = s.v[x].toNat / 10 % 10 ∧
      (t.mem.read (s.dataAddr 2)).toNat = s.v[x].toNat % 10 ∧
      (∀ a, a ≠ s.dataAddr 0 → a ≠ s.dataAddr 1 → a ≠ s.dataAddr 2 → t.mem.read a = s.mem.read a) ∧
      t = { s with mem := t.mem, pc := s.pc + 2 }) ∧
    (0xFFF < s.dataAddr 2 →
      exec (.storeBcd x) s = .next (errorState s .dataAddressOutOfRange s.i))

/-- store-registers (42_index_memory.md R235): `V[k]` at `I+k` for every `k` up to `x` and no other byte,
or the error of 92_eei_decisions.md D5 with nothing else changed; `I` stays (D14). -/
def Obligations.StoreRegistersWritesUpToX : Prop :=
  ∀ (x : RegIdx) (s : State), s.mem.wf →
    (s.dataAddr x.val ≤ 0xFFF → ∃ t, exec (.storeRegisters x) s = .next t ∧
      (∀ k : RegIdx, k.val ≤ x.val → t.mem.read (s.dataAddr k.val) = s.v[k]) ∧
      (∀ a, (∀ k ≤ x.val, a ≠ s.dataAddr k) → t.mem.read a = s.mem.read a) ∧
      t = { s with mem := t.mem, pc := s.pc + 2 }) ∧
    (0xFFF < s.dataAddr x.val →
      exec (.storeRegisters x) s = .next (errorState s .dataAddressOutOfRange s.i))

/-- load-registers (42_index_memory.md R236): the byte at `I+k` into `V[k]` for every `k` up to `x` and no
other register, or the error of 92_eei_decisions.md D5 with nothing else changed; `I` stays (D14). -/
def Obligations.LoadRegistersReadsUpToX : Prop :=
  ∀ (x : RegIdx) (s : State),
    (s.dataAddr x.val ≤ 0xFFF → ∃ t, exec (.loadRegisters x) s = .next t ∧
      (∀ k : RegIdx, k.val ≤ x.val → t.v[k] = s.mem.read (s.dataAddr k.val)) ∧
      (∀ k : RegIdx, x.val < k.val → t.v[k] = s.v[k]) ∧
      t = { s with v := t.v, pc := s.pc + 2 }) ∧
    (0xFFF < s.dataAddr x.val →
      exec (.loadRegisters x) s = .next (errorState s .dataAddressOutOfRange s.i))

/-- 42_index_memory.md R236, "inverse of store-registers": loading what store-registers stored gives the
registers back, whatever was written to them between. -/
def Obligations.LoadAfterStoreGivesRegistersBack : Prop :=
  ∀ (x : RegIdx) (s t : State) (w : Vector Byte 16), s.mem.wf → s.dataAddr x.val ≤ 0xFFF →
    exec (.storeRegisters x) s = .next t →
    ∃ u, exec (.loadRegisters x) { t with v := w } = .next u ∧
      (∀ k : RegIdx, k.val ≤ x.val → u.v[k] = s.v[k]) ∧ (∀ k : RegIdx, x.val < k.val → u.v[k] = w[k])

/-! ### Control flow (40_control_flow.md) -/

/-- explicit-halt (40_control_flow.md R140): `halted` and `stop` only, `pc` stays; the step that runs it
still ticks the timers (92_eei_decisions.md D9). -/
def Obligations.ExplicitHaltHaltsNormally : Prop :=
  Encoded 0xFFFF 0x0000 (fun _ => .explicitHalt) ∧
  ∀ s : State, exec .explicitHalt s = .next { s with halted := true, stop := .halt } ∧
    (Running s → AtInstr s .explicitHalt → ∃ t, step s = .next t ∧
      t.halted = true ∧ t.stop = .halt ∧ t.pc = s.pc ∧
      Ticked s.delayTimer t.delayTimer ∧ Ticked s.soundTimer t.soundTimer)

/-- R144, R150: jump and jump-indexed, with their encodings; the sum of jump-indexed does not wrap. -/
def Obligations.JumpsSetPcToTheirTarget : Prop :=
  Encoded 0xF000 0x1000 (fun w => .jump (fnnn w)) ∧
  Encoded 0xF000 0xB000 (fun w => .jumpIndexed (fnnn w)) ∧
  ∀ (nnn : Addr12) (s : State),
    exec (.jump nnn) s = .next { s with pc := BitVec.ofNat 16 nnn.toNat } ∧
    ∃ t, exec (.jumpIndexed nnn) s = .next t ∧
      t.pc.toNat = nnn.toNat + s.v[(0 : RegIdx)].toNat ∧ t = { s with pc := t.pc }

/-- call (40_control_flow.md R145): the address after the call goes into the next free slot; with
all 16 slots taken it is a StackOverflow with the call's `pc` (92_eei_decisions.md D3) and nothing else
changes. -/
def Obligations.CallPushesAddressAfterIt : Prop :=
  ∀ (nnn : Addr12) (s : State),
    (s.sp.val < 16 → ∃ t, exec (.call nnn) s = .next t ∧
      (∀ k : Fin 16, t.stack[k] = if k.val = s.sp.val then s.pc + 2 else s.stack[k]) ∧
      t.sp.val = s.sp.val + 1 ∧
      t = { s with stack := t.stack, sp := t.sp, pc := BitVec.ofNat 16 nnn.toNat }) ∧
    (s.sp.val = 16 → exec (.call nnn) s = .next (errorState s .stackOverflow s.pc))

/-- return (40_control_flow.md R143): the newest slot goes into `pc` and keeps its value (D25); with no
slot taken it is a StackUnderflow with the return's `pc` (92_eei_decisions.md D3) and nothing else
changes. -/
def Obligations.ReturnPopsNewestAddress : Prop :=
  ∀ s : State,
    (∀ k : Fin 16, s.sp.val = k.val + 1 → ∃ t, exec .ret s = .next t ∧
      t.pc = s.stack[k] ∧ t.sp.val = k.val ∧ t = { s with sp := t.sp, pc := t.pc }) ∧
    (s.sp.val = 0 → exec .ret s = .next (errorState s .stackUnderflow s.pc))

/-- 40_control_flow.md R143, R145 and section 8 of the source (95_test_vectors.md S8): a return after a
call goes to the instruction after the call, with the stack pointer as it was. -/
def Obligations.ReturnAfterCallResumesAfterIt : Prop :=
  ∀ (nnn : Addr12) (s t : State), s.sp.val < 16 → exec (.call nnn) s = .next t →
    ∃ u, exec .ret t = .next u ∧ u.pc = s.pc + 2 ∧ u.sp = s.sp ∧
      ∀ k : Fin 16, k.val ≠ s.sp.val → u.stack[k] = s.stack[k]

/-- R146 to R149: the four skips on immediates and registers, with their encodings; nothing but `pc`
changes. -/
def Obligations.SkipsMovePcByFourOrTwo : Prop :=
  Encoded 0xF000 0x3000 (fun w => .skipIfEqImm (fx w) (fnn w)) ∧
  Encoded 0xF000 0x4000 (fun w => .skipIfNeImm (fx w) (fnn w)) ∧
  Encoded 0xF00F 0x5000 (fun w => .skipIfEqReg (fx w) (fy w)) ∧
  Encoded 0xF00F 0x9000 (fun w => .skipIfNeReg (fx w) (fy w)) ∧
  ∀ (x y : RegIdx) (nn : Byte) (s : State),
    exec (.skipIfEqImm x nn) s = .next { s with pc := if s.v[x] = nn then s.pc + 4 else s.pc + 2 } ∧
    exec (.skipIfNeImm x nn) s = .next { s with pc := if s.v[x] ≠ nn then s.pc + 4 else s.pc + 2 } ∧
    exec (.skipIfEqReg x y) s = .next { s with
      pc := if s.v[x] = s.v[y] then s.pc + 4 else s.pc + 2 } ∧
    exec (.skipIfNeReg x y) s = .next { s with
      pc := if s.v[x] ≠ s.v[y] then s.pc + 4 else s.pc + 2 }

/-- R324: the next `pc` of every instruction by the table, from any `pc` an instruction is fetched at; an
error leaves `pc`; a call has pushed `pc + 2`; the resolution of a key-wait moves it by 2. -/
def Obligations.NextPcFollowsTable : Prop :=
  (∀ (i : Instr) (s : State), s.halted = false → s.pc.toNat + 1 < 4096 → ∃ t, exec i s = .next t ∧
    (∀ kind ctx, t.halted = true → t.stop = .error kind ctx → t.pc = s.pc) ∧
    (t.raised = false → t.pc.toNat = nextPc s i)) ∧
  (∀ (nnn : Addr12) (s t : State), s.halted = false → exec (.call nnn) s = .next t → t.raised = false →
    ∃ k : Fin 16, k.val = s.sp.val ∧ t.stack[k] = s.pc + 2) ∧
  ∀ s : State, s.halted = false → s.awaitingKey = true → ∃ t, step s = .next t ∧
    t.pc = if t.awaitingKey then s.pc else s.pc + 2

/-! ### Display (43_display.md) -/

/-- R271: clear-display, with its encoding: every pixel 0 and `draw_pending` set, `VF` unchanged. -/
def Obligations.ClearDisplayZeroesEveryPixel : Prop :=
  Encoded 0xFFFF 0x00E0 (fun _ => .clearDisplay) ∧
  ∀ s : State, ∃ t, exec .clearDisplay s = .next t ∧ (∀ p < 2048, t.display.cell p = false) ∧
    t = { s with display := t.display, drawPending := true, pc := s.pc + 2 }

/-- draw-sprite (43_display.md R270, R272): the pixels under the sprite's 1 bits flip and no other, `VF`
is 1 exactly when one of them was 1, and no other register changes. The bit order within a byte is
92_eei_decisions.md D13, the range error D5. -/
def Obligations.DrawSpriteFlipsCoveredPixels : Prop :=
  ∀ (x y : RegIdx) (n : Fin 16) (s : State),
    (n.val = 0 ∨ s.dataAddr (n.val - 1) ≤ 0xFFF → ∃ t, exec (.drawSprite x y n) s = .next t ∧
      (∀ c < 64, ∀ r < 32,
        (Covered s x y n c r → t.display.cell (r * 64 + c) = !s.display.cell (r * 64 + c)) ∧
        (¬Covered s x y n c r → t.display.cell (r * 64 + c) = s.display.cell (r * 64 + c))) ∧
      ((∃ c < 64, ∃ r < 32, Covered s x y n c r ∧ s.display.cell (r * 64 + c) = true) →
        t.v[vF] = 1) ∧
      ((∀ c < 64, ∀ r < 32, Covered s x y n c r → s.display.cell (r * 64 + c) = false) →
        t.v[vF] = 0) ∧
      (∀ k : RegIdx, k ≠ vF → t.v[k] = s.v[k]) ∧
      t = { s with v := t.v, display := t.display, drawPending := true, pc := s.pc + 2 }) ∧
    (n.val ≠ 0 ∧ 0xFFF < s.dataAddr (n.val - 1) →
      exec (.drawSprite x y n) s = .next (errorState s .dataAddressOutOfRange s.i))

/-- 43_display.md R272, its derived sentence, and 95_test_vectors.md S10: drawing the same sprite at the
same place twice, with `V[x]` and `V[y]` unchanged by the first draw's flag (they are where neither is
`VF`), restores the display, and the second draw sets `VF` to 1 exactly when some pixel under the sprite
was 0 before the first. -/
def Obligations.DrawingTwiceRestoresDisplay : Prop :=
  ∀ (x y : RegIdx) (n : Fin 16) (s t : State), (n.val = 0 ∨ s.dataAddr (n.val - 1) ≤ 0xFFF) →
    exec (.drawSprite x y n) s = .next t → t.v[x] = s.v[x] → t.v[y] = s.v[y] →
    ∃ u, exec (.drawSprite x y n) t = .next u ∧ u.display = s.display ∧
      (u.v[vF] = 1 ↔ ∃ c < 64, ∃ r < 32, Covered s x y n c r ∧ s.display.cell (r * 64 + c) = false)

/-! ### Keys and timers (44_keys_timers.md) -/

/-- skip-if-key-down and skip-if-key-up (44_keys_timers.md R291, R292): they skip on the flag of the key
`V[x]` names, and above 0x0F raise the error of 92_eei_decisions.md D6 with nothing else changed. -/
def Obligations.KeySkipsFollowTheKeyFlag : Prop :=
  ∀ (x : RegIdx) (s : State),
    (∀ k : KeyIdx, s.v[x].toNat = k.val →
      exec (.skipIfKeyDown x) s = .next { s with
        pc := if s.keys[k] = true then s.pc + 4 else s.pc + 2 } ∧
      exec (.skipIfKeyUp x) s = .next { s with
        pc := if s.keys[k] = false then s.pc + 4 else s.pc + 2 }) ∧
    (0x0F < s.v[x].toNat →
      exec (.skipIfKeyDown x) s =
        .next (errorState s .keyIndexOutOfRange (BitVec.ofNat 16 s.v[x].toNat)) ∧
      exec (.skipIfKeyUp x) s =
        .next (errorState s .keyIndexOutOfRange (BitVec.ofNat 16 s.v[x].toNat)))

/-- R293, R295, R296: get-delay, set-delay and set-sound, with their encodings; no flag. -/
def Obligations.TimerInstructionsMoveTimers : Prop :=
  Encoded 0xF0FF 0xF007 (fun w => .getDelay (fx w)) ∧
  Encoded 0xF0FF 0xF015 (fun w => .setDelay (fx w)) ∧
  Encoded 0xF0FF 0xF018 (fun w => .setSound (fx w)) ∧
  ∀ (x : RegIdx) (s : State),
    exec (.getDelay x) s = .next { s with v := s.v.set x s.delayTimer, pc := s.pc + 2 } ∧
    exec (.setDelay x) s = .next { s with delayTimer := s.v[x], pc := s.pc + 2 } ∧
    exec (.setSound x) s = .next { s with soundTimer := s.v[x], pc := s.pc + 2 }

/-- 44_keys_timers.md R293, R295, R296, their derived sentences: in a whole step, get-delay reads the
timer before the tick, and a timer that is set has lost one count at the end of the step, never going
below 0. -/
def Obligations.StepOfTimerInstructionTicksAfterIt : Prop :=
  ∀ (x : RegIdx) (s : State), Running s →
    (AtInstr s (.getDelay x) → ∃ t, step s = .next t ∧ t.v[x] = s.delayTimer ∧
      Ticked s.delayTimer t.delayTimer) ∧
    (AtInstr s (.setDelay x) → ∃ t, step s = .next t ∧ Ticked s.v[x] t.delayTimer ∧
      Ticked s.soundTimer t.soundTimer) ∧
    (AtInstr s (.setSound x) → ∃ t, step s = .next t ∧ Ticked s.v[x] t.soundTimer ∧
      Ticked s.delayTimer t.delayTimer)

/-- wait-for-key (44_keys_timers.md R294): the machine is suspended with `pc` at the instruction, and the
step that runs it ticks the timers and records the key sample. -/
def Obligations.WaitForKeySuspends : Prop :=
  ∀ (x : RegIdx) (s : State),
    exec (.waitForKey x) s = .next { s with awaitingKey := true, keyTarget := x } ∧
    (Running s → AtInstr s (.waitForKey x) → ∃ t, step s = .next t ∧ t.awaitingKey = true ∧
      t.keyTarget = x ∧ t.pc = s.pc ∧ t.v = s.v ∧ t.prevKeys = s.keys ∧
      Ticked s.delayTimer t.delayTimer ∧ Ticked s.soundTimer t.soundTimer)

/-! ### The step (60_exceptions.md) -/

/-- R323: when the word at `pc` decodes to `i`, a step of a running machine is `exec` of `i`, then the
timer tick unless the handler raised an error, then the key sample. -/
def Obligations.StepRunsDecodedInstruction : Prop :=
  ∀ (i : Instr) (s t : State), Running s → AtInstr s i → exec i s = .next t →
    step s = .next { (if t.raised then t else { t with
      delayTimer := if t.delayTimer = 0 then 0 else t.delayTimer - 1
      soundTimer := if t.soundTimer = 0 then 0 else t.soundTimer - 1 }) with prevKeys := s.keys }

/-- Every step of every state has a next state: no instruction, no data and no word stops the model
(30_encoding.md R103, R106; 60_exceptions.md R326; 93_implementation_defined.md part 1). -/
def Obligations.EveryStepHasNextState : Prop :=
  ∀ s : State, ∃ t, step s = .next t

/-- The invariant of Safety.lean is kept by every step: memory stays canonical, `stop` and `halted` agree
(R45), `pc` stays at most 0x10FE (R34), a waiting machine stands at a fetched instruction, and stack slots
hold addresses after calls. -/
def Obligations.StepKeepsMachineInvariant : Prop :=
  ∀ s t : State, Inv s → step s = .next t → Inv t

/-- The invariant holds after reset, for every seed. -/
def Obligations.ResetMeetsMachineInvariant : Prop :=
  Inv State.reset ∧ ∀ seed, Inv (State.construct seed)

/-- 60_exceptions.md R320 (92_eei_decisions.md D10): a step of a halted machine changes nothing, however
often it is stepped. -/
def Obligations.HaltedMachineNeverChanges : Prop :=
  ∀ (s : State) (n : Nat), s.halted = true → core.run n s = .next s

/-- 60_exceptions.md R322: a key-wait step with no down edge records the key sample
(92_eei_decisions.md D7) and changes nothing else. -/
def Obligations.KeyWaitWithoutEdgeOnlyRecordsSample : Prop :=
  ∀ s : State, s.halted = false → s.awaitingKey = true →
    (∀ k : KeyIdx, s.keys[k] = true → s.prevKeys[k] = true) →
    step s = .next { s with prevKeys := s.keys }

/-- 60_exceptions.md R322: a key-wait step with a down edge resolves the wait with one of the keys that
show an edge (which one, where several do, is `P_KEYSEL`'s choice and free), with no timer tick
(92_eei_decisions.md D9). -/
def Obligations.KeyWaitResolvesOnDownEdge : Prop :=
  ∀ s : State, s.halted = false → s.awaitingKey = true →
    (∃ k : KeyIdx, s.keys[k] = true ∧ s.prevKeys[k] = false) →
    ∃ k : KeyIdx, s.keys[k] = true ∧ s.prevKeys[k] = false ∧ step s = .next { s with
      v := s.v.set s.keyTarget (BitVec.ofNat 8 k.val)
      awaitingKey := false
      pc := s.pc + 2
      prevKeys := s.keys }

/-- 20_memory.md R77: a fetch with `pc + 1 >= 4096` raises AddressOutOfRange with `pc` as its context
(92_eei_decisions.md D3); the timers do not tick and the key sample is recorded (R325, R330). -/
def Obligations.FetchPastMemoryRaises : Prop :=
  ∀ s : State, Running s → s.pc.toNat + 1 ≥ 4096 →
    step s = .next { errorState s .addressOutOfRange s.pc with prevKeys := s.keys }

/-- unknown-opcode (60_exceptions.md R331): it raises UnknownOpcode with the raw word, `pc` stays, and
nothing else changes (92_eei_decisions.md D26). -/
def Obligations.UnknownOpcodeHaltsWithRawWord : Prop :=
  ∀ (w : Word) (s : State),
    exec (.unknownOpcode w) s = .next { s with halted := true, stop := .error .unknownOpcode w }

/-- 60_exceptions.md R330 (92_eei_decisions.md D26): an error is precise. A handler that raises one
changes `halted` and `stop` alone, and the step adds the key sample and nothing more. -/
def Obligations.ErrorsArePrecise : Prop :=
  (∀ (i : Instr) (s t : State) (kind : ErrorKind) (ctx : Word), s.halted = false →
    exec i s = .next t → t.halted = true → t.stop = .error kind ctx → t = errorState s kind ctx) ∧
  ∀ (s t : State) (kind : ErrorKind) (ctx : Word), s.halted = false → step s = .next t →
    t.halted = true → t.stop = .error kind ctx →
    t = { errorState s kind ctx with prevKeys := s.keys }

/-- 60_exceptions.md R329, R333: which error a step raises, with its cause and its context. Each of the
six kinds comes from its one cause. -/
def Obligations.ErrorsHaveTheirCauses : Prop :=
  ∀ (s t : State) (kind : ErrorKind) (ctx : Word), s.halted = false → step s = .next t →
    t.halted = true → t.stop = .error kind ctx →
    s.awaitingKey = false ∧ ErrorCause s ctx kind

/-- 60_exceptions.md R327 (92_eei_decisions.md D9): the timers tick in a step exactly when it runs a
handler that raises no error; otherwise they stay. `d` and `w` are the timers the handler left. -/
def Obligations.TimersTickOnlyAfterCompletedHandlers : Prop :=
  ∀ s t : State, step s = .next t →
    (s.halted = true ∨ s.awaitingKey = true ∨ s.pc.toNat + 1 ≥ 4096 ∨ t.raised = true →
      t.delayTimer = s.delayTimer ∧ t.soundTimer = s.soundTimer) ∧
    (∀ (i : Instr) (h : State), Running s → AtInstr s i → exec i s = .next h → h.raised = false →
      Ticked h.delayTimer t.delayTimer ∧ Ticked h.soundTimer t.soundTimer)

/-- 60_exceptions.md R321, R325 (92_eei_decisions.md D7): a step of a running machine records the key
sample it began with and never writes the keys. -/
def Obligations.RunningStepRecordsKeySample : Prop :=
  ∀ s t : State, s.halted = false → step s = .next t → t.keys = s.keys ∧ t.prevKeys = s.keys

/-! ### Frames: what each handler leaves unchanged -/

/-- 10_state.md R31, R32: every instruction leaves every register but those it may write. -/
def Obligations.RegistersChangeOnlyAsNamed : Prop :=
  ∀ (i : Instr) (s t : State), exec i s = .next t →
    ∀ k : RegIdx, ¬mayWrite i k → t.v[k] = s.v[k]

/-- 20_memory.md R81: every byte of memory is unchanged but those an instruction stores to; only
store-bcd and store-registers store. -/
def Obligations.MemoryChangesOnlyWhereStored : Prop :=
  ∀ (i : Instr) (s t : State), s.mem.wf → exec i s = .next t →
    ∀ a, ¬storesAt s i a → t.mem.read a = s.mem.read a

/-- 42_index_memory.md R230 (92_eei_decisions.md D14), 10_state.md R33: only load-index, add-to-index and
sprite-address change `I`. -/
def Obligations.IndexChangesOnlyByItsThreeInstructions : Prop :=
  ∀ (i : Instr) (s t : State), exec i s = .next t → t.i ≠ s.i →
    (∃ nnn, i = .loadIndex nnn) ∨ (∃ x, i = .addToIndex x) ∨ ∃ x, i = .spriteAddress x

/-- 10_state.md R35, R36: only call writes a stack slot, the one at `sp`, and only call and return change
`sp`. -/
def Obligations.StackChangesOnlyByCallAndReturn : Prop :=
  ∀ (i : Instr) (s t : State), exec i s = .next t →
    (∀ k : Fin 16, t.stack[k] ≠ s.stack[k] → k.val = s.sp.val ∧ ∃ nnn, i = .call nnn) ∧
    (t.sp ≠ s.sp → i = .ret ∨ ∃ nnn, i = .call nnn)

/-- 10_state.md R37, R41: only clear-display and draw-sprite write the display and `draw_pending`, which
no instruction clears. -/
def Obligations.DisplayChangesOnlyByDisplayInstructions : Prop :=
  ∀ (i : Instr) (s t : State), exec i s = .next t →
    (t.display ≠ s.display ∨ t.drawPending ≠ s.drawPending →
      i = .clearDisplay ∨ ∃ x y n, i = .drawSprite x y n) ∧
    (s.drawPending = true → t.drawPending = true)

/-- 10_state.md R38 to R45: no handler writes `keys` or `prev_keys`; only set-delay and set-sound write
the timers, only random the generator, only wait-for-key `awaiting_key` and `key_target`; only
explicit-halt and an error write `halted` or `stop`, and none clears `halted`. -/
def Obligations.ControlStateChangesOnlyAsNamed : Prop :=
  ∀ (i : Instr) (s t : State), exec i s = .next t →
    t.keys = s.keys ∧ t.prevKeys = s.prevKeys ∧
    (t.delayTimer ≠ s.delayTimer → ∃ x, i = .setDelay x) ∧
    (t.soundTimer ≠ s.soundTimer → ∃ x, i = .setSound x) ∧
    (t.rngState ≠ s.rngState → ∃ x nn, i = .random x nn) ∧
    (t.awaitingKey ≠ s.awaitingKey ∨ t.keyTarget ≠ s.keyTarget → ∃ x, i = .waitForKey x) ∧
    (t.halted ≠ s.halted ∨ t.stop ≠ s.stop →
      i = .explicitHalt ∧ t.stop = .halt ∨ ∃ kind ctx, t.stop = .error kind ctx ∧ t.halted = true) ∧
    (s.halted = true → t.halted = true)

/-! ### Memory, reset and the host -/

/-- 20_memory.md R85 (92_eei_decisions.md D17): what store-bcd and store-registers store is what any later
fetch reads, byte by byte: a byte of the fetched word that was stored to is the stored one, the other as
before. So it is for the very next instruction, in the step after the storing one. -/
def Obligations.StoreIsSeenByNextFetch : Prop :=
  ∀ (i : Instr) (s : State), s.mem.wf → (∃ x, i = .storeBcd x ∨ i = .storeRegisters x) →
    s.dataAddr (accessed i - 1) ≤ 0xFFF →
    (∃ t, exec i s = .next t ∧ t.pc = s.pc + 2 ∧ ∀ p : Word, p.toNat + 1 < 4096 →
      ({ t with pc := p } : State).fetch =
        some (beWord (byteAfter s i p.toNat) (byteAfter s i (p.toNat + 1)))) ∧
    (Running s → AtInstr s i → s.pc.toNat + 3 < 4096 → ∃ u, step s = .next u ∧ u.fetch =
      some (beWord (byteAfter s i (s.pc.toNat + 2)) (byteAfter s i (s.pc.toNat + 3))))

/-- 70_reset_and_hazards.md R380, 10_state.md R31 to R45: what construction leaves, for every seed. The
reset values of `prev_keys`, `key_target` and `stop` are the spec's own (R380); the font bytes are
`P_FONT`'s, whatever they are (R72). That the generator's first state is the seed with no byte drawn is
the model's representation of the state `P_RNG` derives from `P_SEED`, log entry 1. -/
def Obligations.ConstructionZeroesAllButFontAndPc : Prop :=
  ∀ seed, let s := State.construct seed
    (∀ k : RegIdx, s.v[k] = 0) ∧ s.i = 0 ∧ s.pc = 0x200 ∧ s.sp = 0 ∧ (∀ k : Fin 16, s.stack[k] = 0) ∧
    (∀ p < 2048, s.display.cell p = false) ∧ s.delayTimer = 0 ∧ s.soundTimer = 0 ∧
    (∀ k : KeyIdx, s.keys[k] = false ∧ s.prevKeys[k] = false) ∧ s.drawPending = false ∧
    s.halted = false ∧ s.awaitingKey = false ∧ s.keyTarget = 0 ∧ s.stop = .running ∧
    s.rngState = { seed := seed, drawn := 0 } ∧
    (∀ k : Fin 80, s.mem.read (0x50 + k.val) = Config.pFont[k]) ∧
    ∀ a < 4096, (a < 0x50 ∨ 0xA0 ≤ a) → s.mem.read a = 0

/-- R381: the machine starts running and not in key-wait, and its first step fetches at 0x200, where the
first two bytes of a loaded ROM stand (the fetch after a load: 70_reset_and_hazards.md R383). -/
def Obligations.FirstStepFetchesAt200 : Prop :=
  ∀ (hi lo : Byte) (rest : List Byte), rest.length + 2 ≤ 3584 →
    Running State.reset ∧ State.reset.pc = 0x200 ∧
      (State.reset.loadRom (hi :: lo :: rest)).fetch = some (beWord hi lo)

/-- 70_reset_and_hazards.md R383, its derived sentence: a machine stepped with no ROM loaded halts
normally at its first step. -/
def Obligations.UnloadedMachineHaltsAtFirstStep : Prop :=
  step State.reset = .next { State.reset with halted := true, stop := .halt }

/-- 60_exceptions.md R336 (92_eei_decisions.md D18): before the first step a ROM of at most 3584 bytes is
written from 0x200 on and nowhere else, and nothing but memory changes; a longer one, or one after a
step, is refused with no effect. That a block remembers its first step is the model's `Block`, log
entry 10. -/
def Obligations.RomIsLoadedAt200BeforeFirstStep : Prop :=
  ∀ (b : Block) (rom : List Byte), b.machine.mem.wf →
    (b.started = false → rom.length ≤ 3584 → ∃ c, b.act (.loadRom rom) = (.done, c) ∧
      (∀ (k : Nat) (hk : k < rom.length), c.machine.mem.read (0x200 + k) = rom[k]) ∧
      (∀ a, (a < 0x200 ∨ 0x200 + rom.length ≤ a) →
        c.machine.mem.read a = b.machine.mem.read a) ∧
      c = { b with machine := { b.machine with mem := c.machine.mem } }) ∧
    ((b.started = true ∨ 3584 < rom.length) → b.act (.loadRom rom) = (.romRefused, b))

/-- 60_exceptions.md R326, R329, R336, R340 (92_eei_decisions.md D1, D2, D20, D21): between steps the host
sets the keys or acknowledges the display and changes nothing else; reading the display or the status
changes nothing; the status shows the code and the context of `stop`; and a step answers `Ok`, `Halt` or
the error, as `stop` is at its end. That `started` records the step is the model's `Block`, log entry 10;
that the context is absent where there is no error is the model's, log entry 15. -/
def Obligations.HostActionsTouchOnlyTheirState : Prop :=
  ∀ (b : Block) (k : KeySet),
    b.act (.setKeys k) = (.done, { b with machine := { b.machine with keys := k } }) ∧
    b.act .ackDraw = (.done, { b with machine := { b.machine with drawPending := false } }) ∧
    b.act .readDisplay = (.display b.machine.display, b) ∧
    (∃ st, b.act .readStatus = (.status st, b) ∧ st.halted = b.machine.halted ∧
      st.stop = b.machine.stop ∧ st.awaitingKey = b.machine.awaitingKey ∧
      st.drawPending = b.machine.drawPending ∧ (st.soundActive = true ↔ b.machine.soundTimer ≠ 0) ∧
      (∀ kind ctx, b.machine.stop = .error kind ctx →
        st.code.toNat = errorNumber kind ∧ st.ctx = some ctx) ∧
      (b.machine.stop = .running ∨ b.machine.stop = .halt → st.code = 0 ∧ st.ctx = none)) ∧
    ∀ t, step b.machine = .next t → ∃ r, b.act .step = (.stepped r, { started := true, machine := t }) ∧
      (t.stop = .running → r = .ok) ∧ (t.stop = .halt → r = .halt) ∧
      ∀ kind ctx, t.stop = .error kind ctx → r = .error kind ctx

end
end

