-- ==== Sys2Proof/Laws/Decode.lean ====
section
/-! SUPPORT. The fields of the words the encoder writes, the fields behind a mask of R105, and the two
bytes of a word. -/

namespace Sys2Proof

/-! ### Fields as numbers -/

theorem toNat_bits (w : Word) (lo width : Nat) : (bits w lo width).toNat = w.toNat / 2 ^ lo % 2 ^ width := by
  simp [bits, Nat.shiftRight_eq_div_pow]

theorem opField_eq (w : Word) : opField w = w.toNat / 0x1000 := by
  have := w.isLt
  rw [opField, toNat_bits]
  omega

theorem xField_val (w : Word) : (xField w).val = w.toNat / 0x100 % 0x10 := toNat_bits w 8 4

theorem yField_val (w : Word) : (yField w).val = w.toNat / 0x10 % 0x10 := toNat_bits w 4 4

theorem nField_val (w : Word) : (nField w).val = w.toNat % 0x10 :=
  (toNat_bits w 0 4).trans (by simp)

theorem nnField_toNat (w : Word) : (nnField w).toNat = w.toNat % 0x100 :=
  (toNat_bits w 0 8).trans (by simp)

theorem nnnField_toNat (w : Word) : (nnnField w).toNat = w.toNat % 0x1000 :=
  (toNat_bits w 0 12).trans (by simp)

/-! ### Words the encoder writes, as numbers -/

theorem toNat_append' {m n : Nat} (a : BitVec m) (b : BitVec n) :
    (a ++ b).toNat = a.toNat * 2 ^ n + b.toNat := by
  rw [BitVec.toNat_append, Nat.shiftLeft_eq, Nat.mul_comm, ← Nat.two_pow_add_eq_or_of_lt b.isLt]

@[simp] theorem nibble_toNat (x : Fin 16) : (nibble x).toNat = x.val := rfl

theorem wordNnn_toNat (op : BitVec 4) (nnn : Addr12) :
    (wordNnn op nnn).toNat = op.toNat * 0x1000 + nnn.toNat := toNat_append' op nnn

theorem wordXnn_toNat (op : BitVec 4) (x : RegIdx) (nn : Byte) :
    (wordXnn op x nn).toNat = op.toNat * 0x1000 + x.val * 0x100 + nn.toNat := by
  have h : (wordXnn op x nn).toNat = ((op ++ nibble x) ++ nn).toNat := rfl
  rw [h, toNat_append', toNat_append', nibble_toNat]
  omega

theorem wordXyn_toNat (op : BitVec 4) (x y : RegIdx) (n : BitVec 4) :
    (wordXyn op x y n).toNat = op.toNat * 0x1000 + x.val * 0x100 + y.val * 0x10 + n.toNat := by
  have h : (wordXyn op x y n).toNat = ((op ++ nibble x) ++ (nibble y ++ n)).toNat := rfl
  rw [h, toNat_append', toNat_append', toNat_append', nibble_toNat, nibble_toNat]
  omega

/-! ### The fields of the words the encoder writes -/

@[simp] theorem opField_wordNnn (op : BitVec 4) (nnn : Addr12) : opField (wordNnn op nnn) = op.toNat := by
  have := nnn.isLt
  rw [opField_eq, wordNnn_toNat]
  omega

@[simp] theorem nnnField_wordNnn (op : BitVec 4) (nnn : Addr12) : nnnField (wordNnn op nnn) = nnn := by
  have := nnn.isLt
  apply BitVec.eq_of_toNat_eq
  rw [nnnField_toNat, wordNnn_toNat]
  omega

@[simp] theorem opField_wordXnn (op : BitVec 4) (x : RegIdx) (nn : Byte) :
    opField (wordXnn op x nn) = op.toNat := by
  have := nn.isLt
  rw [opField_eq, wordXnn_toNat]
  omega

@[simp] theorem xField_wordXnn (op : BitVec 4) (x : RegIdx) (nn : Byte) : xField (wordXnn op x nn) = x := by
  have := nn.isLt
  apply Fin.ext
  rw [xField_val, wordXnn_toNat]
  omega

@[simp] theorem nnField_wordXnn (op : BitVec 4) (x : RegIdx) (nn : Byte) : nnField (wordXnn op x nn) = nn := by
  have := nn.isLt
  apply BitVec.eq_of_toNat_eq
  rw [nnField_toNat, wordXnn_toNat]
  omega

@[simp] theorem opField_wordXyn (op : BitVec 4) (x y : RegIdx) (n : BitVec 4) :
    opField (wordXyn op x y n) = op.toNat := by
  have := n.isLt
  rw [opField_eq, wordXyn_toNat]
  omega

@[simp] theorem xField_wordXyn (op : BitVec 4) (x y : RegIdx) (n : BitVec 4) :
    xField (wordXyn op x y n) = x := by
  have := n.isLt
  apply Fin.ext
  rw [xField_val, wordXyn_toNat]
  omega

@[simp] theorem yField_wordXyn (op : BitVec 4) (x y : RegIdx) (n : BitVec 4) :
    yField (wordXyn op x y n) = y := by
  have := n.isLt
  apply Fin.ext
  rw [yField_val, wordXyn_toNat]
  omega

@[simp] theorem nField_wordXyn (op : BitVec 4) (x y : RegIdx) (n : BitVec 4) :
    nField (wordXyn op x y n) = n.toFin := by
  have := n.isLt
  apply Fin.ext
  rw [nField_val, wordXyn_toNat]
  show _ = n.toNat
  omega

/-! ### Masks: which fields a match under a mask of R105 fixes -/

/-- Under the mask 0xF000 a match fixes the high nibble. -/
theorem mask_op_iff (w c : Word) :
    w &&& 0xF000#16 = c ↔ w.toNat / 0x1000 * 0x1000 = c.toNat := by
  have h : w &&& 0xF000#16 = (w >>> 12) <<< 12 := by
    ext i hi
    simp only [BitVec.getElem_and, BitVec.getElem_shiftLeft, BitVec.getElem_ushiftRight]
    interval_cases i <;> simp
  have := w.isLt
  rw [← BitVec.toNat_inj, h, BitVec.toNat_shiftLeft, BitVec.toNat_ushiftRight,
    Nat.shiftRight_eq_div_pow, Nat.shiftLeft_eq]
  omega

/-- A mask of the high nibble and of the `k` low bits, as the sum of the two parts. -/
theorem toNat_mask_low (w : Word) (k : Nat) (hk : k ≤ 12) :
    (w &&& (0xF000#16 ||| BitVec.ofNat 16 (2 ^ k - 1))).toNat =
      w.toNat / 0x1000 * 0x1000 + w.toNat % 2 ^ k := by
  have hpow : 2 ^ k ≤ 2 ^ 12 := Nat.pow_le_pow_right (by decide) hk
  have hlow : (w &&& BitVec.ofNat 16 (2 ^ k - 1)).toNat = w.toNat % 2 ^ k := by
    rw [BitVec.toNat_and, BitVec.toNat_ofNat, Nat.mod_eq_of_lt (by omega),
      Nat.and_two_pow_sub_one_eq_mod]
  have hhigh := (mask_op_iff w _).1 rfl
  have hdisj : (w &&& 0xF000#16) &&& (w &&& BitVec.ofNat 16 (2 ^ k - 1)) = 0#16 := by
    interval_cases k <;> (ext i hi; interval_cases i <;> simp)
  have hor : w &&& (0xF000#16 ||| BitVec.ofNat 16 (2 ^ k - 1)) =
      (w &&& 0xF000#16) ||| (w &&& BitVec.ofNat 16 (2 ^ k - 1)) := by
    ext i hi
    simp only [BitVec.getElem_and, BitVec.getElem_or, Bool.and_or_distrib_left]
  have := w.isLt
  have := Nat.mod_lt w.toNat (Nat.two_pow_pos k)
  rw [hor, ← BitVec.add_eq_or_of_and_eq_zero _ _ hdisj, BitVec.toNat_add, hlow, ← hhigh]
  omega

/-- Under the mask 0xF00F a match fixes the high and the low nibble. -/
theorem mask_op_n_iff (w c : Word) :
    w &&& 0xF00F#16 = c ↔ w.toNat / 0x1000 * 0x1000 + w.toNat % 0x10 = c.toNat := by
  rw [← BitVec.toNat_inj]
  exact Eq.congr_left (toNat_mask_low w 4 (by decide))

/-- Under the mask 0xF0FF a match fixes the high nibble and the low byte. -/
theorem mask_op_nn_iff (w c : Word) :
    w &&& 0xF0FF#16 = c ↔ w.toNat / 0x1000 * 0x1000 + w.toNat % 0x100 = c.toNat := by
  rw [← BitVec.toNat_inj]
  exact Eq.congr_left (toNat_mask_low w 8 (by decide))

/-! ### Bytes -/

/-- The two bytes of a word, put together again (R78). -/
theorem beWord_beBytes (w : Word) : beWord (bits w 8 8) (bits w 0 8) = w := by
  have := w.isLt
  apply BitVec.eq_of_toNat_eq
  have h : (beWord (bits w 8 8) (bits w 0 8)).toNat = (bits w 8 8 ++ bits w 0 8).toNat := rfl
  rw [h, toNat_append', toNat_bits, toNat_bits]
  omega

/-- Bytes in memory order decode as the word they make up. -/
theorem decodeBytes_beBytes (w : Word) (rest : List Byte) :
    decodeBytes (beBytes w ++ rest) = .ok (decodeWord w, rest) := by
  simp [beBytes, decodeBytes, beWord_beBytes]

end Sys2Proof
end

