-- ==== Sys2Proof/Laws/State.lean ====
section
/-! SUPPORT. One lemma per field per update of the state, each true by unfolding the update once, so
that no later proof unfolds a record update. -/

namespace Sys2Proof.Machine

variable (s : State)

/-! ### setReg -/

@[simp] theorem State.setReg_v (x : RegIdx) (b : Byte) : (s.setReg x b).v = s.v.set x b := rfl
@[simp] theorem State.setReg_i (x : RegIdx) (b : Byte) : (s.setReg x b).i = s.i := rfl
@[simp] theorem State.setReg_pc (x : RegIdx) (b : Byte) : (s.setReg x b).pc = s.pc := rfl
@[simp] theorem State.setReg_stack (x : RegIdx) (b : Byte) : (s.setReg x b).stack = s.stack := rfl
@[simp] theorem State.setReg_sp (x : RegIdx) (b : Byte) : (s.setReg x b).sp = s.sp := rfl
@[simp] theorem State.setReg_mem (x : RegIdx) (b : Byte) : (s.setReg x b).mem = s.mem := rfl
@[simp] theorem State.setReg_display (x : RegIdx) (b : Byte) : (s.setReg x b).display = s.display := rfl
@[simp] theorem State.setReg_delayTimer (x : RegIdx) (b : Byte) : (s.setReg x b).delayTimer = s.delayTimer := rfl
@[simp] theorem State.setReg_soundTimer (x : RegIdx) (b : Byte) : (s.setReg x b).soundTimer = s.soundTimer := rfl
@[simp] theorem State.setReg_keys (x : RegIdx) (b : Byte) : (s.setReg x b).keys = s.keys := rfl
@[simp] theorem State.setReg_prevKeys (x : RegIdx) (b : Byte) : (s.setReg x b).prevKeys = s.prevKeys := rfl
@[simp] theorem State.setReg_drawPending (x : RegIdx) (b : Byte) : (s.setReg x b).drawPending = s.drawPending := rfl
@[simp] theorem State.setReg_halted (x : RegIdx) (b : Byte) : (s.setReg x b).halted = s.halted := rfl
@[simp] theorem State.setReg_awaitingKey (x : RegIdx) (b : Byte) : (s.setReg x b).awaitingKey = s.awaitingKey := rfl
@[simp] theorem State.setReg_keyTarget (x : RegIdx) (b : Byte) : (s.setReg x b).keyTarget = s.keyTarget := rfl
@[simp] theorem State.setReg_rngState (x : RegIdx) (b : Byte) : (s.setReg x b).rngState = s.rngState := rfl
@[simp] theorem State.setReg_stop (x : RegIdx) (b : Byte) : (s.setReg x b).stop = s.stop := rfl

/-! ### advance -/

@[simp] theorem State.advance_v : s.advance.v = s.v := rfl
@[simp] theorem State.advance_i : s.advance.i = s.i := rfl
@[simp] theorem State.advance_pc : s.advance.pc = s.pc + 2 := rfl
@[simp] theorem State.advance_stack : s.advance.stack = s.stack := rfl
@[simp] theorem State.advance_sp : s.advance.sp = s.sp := rfl
@[simp] theorem State.advance_mem : s.advance.mem = s.mem := rfl
@[simp] theorem State.advance_display : s.advance.display = s.display := rfl
@[simp] theorem State.advance_delayTimer : s.advance.delayTimer = s.delayTimer := rfl
@[simp] theorem State.advance_soundTimer : s.advance.soundTimer = s.soundTimer := rfl
@[simp] theorem State.advance_keys : s.advance.keys = s.keys := rfl
@[simp] theorem State.advance_prevKeys : s.advance.prevKeys = s.prevKeys := rfl
@[simp] theorem State.advance_drawPending : s.advance.drawPending = s.drawPending := rfl
@[simp] theorem State.advance_halted : s.advance.halted = s.halted := rfl
@[simp] theorem State.advance_awaitingKey : s.advance.awaitingKey = s.awaitingKey := rfl
@[simp] theorem State.advance_keyTarget : s.advance.keyTarget = s.keyTarget := rfl
@[simp] theorem State.advance_rngState : s.advance.rngState = s.rngState := rfl
@[simp] theorem State.advance_stop : s.advance.stop = s.stop := rfl

/-! ### jumpTo -/

@[simp] theorem State.jumpTo_v (w : Word) : (s.jumpTo w).v = s.v := rfl
@[simp] theorem State.jumpTo_i (w : Word) : (s.jumpTo w).i = s.i := rfl
@[simp] theorem State.jumpTo_pc (w : Word) : (s.jumpTo w).pc = w := rfl
@[simp] theorem State.jumpTo_stack (w : Word) : (s.jumpTo w).stack = s.stack := rfl
@[simp] theorem State.jumpTo_sp (w : Word) : (s.jumpTo w).sp = s.sp := rfl
@[simp] theorem State.jumpTo_mem (w : Word) : (s.jumpTo w).mem = s.mem := rfl
@[simp] theorem State.jumpTo_display (w : Word) : (s.jumpTo w).display = s.display := rfl
@[simp] theorem State.jumpTo_delayTimer (w : Word) : (s.jumpTo w).delayTimer = s.delayTimer := rfl
@[simp] theorem State.jumpTo_soundTimer (w : Word) : (s.jumpTo w).soundTimer = s.soundTimer := rfl
@[simp] theorem State.jumpTo_keys (w : Word) : (s.jumpTo w).keys = s.keys := rfl
@[simp] theorem State.jumpTo_prevKeys (w : Word) : (s.jumpTo w).prevKeys = s.prevKeys := rfl
@[simp] theorem State.jumpTo_drawPending (w : Word) : (s.jumpTo w).drawPending = s.drawPending := rfl
@[simp] theorem State.jumpTo_halted (w : Word) : (s.jumpTo w).halted = s.halted := rfl
@[simp] theorem State.jumpTo_awaitingKey (w : Word) : (s.jumpTo w).awaitingKey = s.awaitingKey := rfl
@[simp] theorem State.jumpTo_keyTarget (w : Word) : (s.jumpTo w).keyTarget = s.keyTarget := rfl
@[simp] theorem State.jumpTo_rngState (w : Word) : (s.jumpTo w).rngState = s.rngState := rfl
@[simp] theorem State.jumpTo_stop (w : Word) : (s.jumpTo w).stop = s.stop := rfl

/-! ### skipIf -/

@[simp] theorem State.skipIf_v (c : Bool) : (s.skipIf c).v = s.v := rfl
@[simp] theorem State.skipIf_i (c : Bool) : (s.skipIf c).i = s.i := rfl
@[simp] theorem State.skipIf_pc (c : Bool) : (s.skipIf c).pc = if c then s.pc + 4 else s.pc + 2 := rfl
@[simp] theorem State.skipIf_stack (c : Bool) : (s.skipIf c).stack = s.stack := rfl
@[simp] theorem State.skipIf_sp (c : Bool) : (s.skipIf c).sp = s.sp := rfl
@[simp] theorem State.skipIf_mem (c : Bool) : (s.skipIf c).mem = s.mem := rfl
@[simp] theorem State.skipIf_display (c : Bool) : (s.skipIf c).display = s.display := rfl
@[simp] theorem State.skipIf_delayTimer (c : Bool) : (s.skipIf c).delayTimer = s.delayTimer := rfl
@[simp] theorem State.skipIf_soundTimer (c : Bool) : (s.skipIf c).soundTimer = s.soundTimer := rfl
@[simp] theorem State.skipIf_keys (c : Bool) : (s.skipIf c).keys = s.keys := rfl
@[simp] theorem State.skipIf_prevKeys (c : Bool) : (s.skipIf c).prevKeys = s.prevKeys := rfl
@[simp] theorem State.skipIf_drawPending (c : Bool) : (s.skipIf c).drawPending = s.drawPending := rfl
@[simp] theorem State.skipIf_halted (c : Bool) : (s.skipIf c).halted = s.halted := rfl
@[simp] theorem State.skipIf_awaitingKey (c : Bool) : (s.skipIf c).awaitingKey = s.awaitingKey := rfl
@[simp] theorem State.skipIf_keyTarget (c : Bool) : (s.skipIf c).keyTarget = s.keyTarget := rfl
@[simp] theorem State.skipIf_rngState (c : Bool) : (s.skipIf c).rngState = s.rngState := rfl
@[simp] theorem State.skipIf_stop (c : Bool) : (s.skipIf c).stop = s.stop := rfl

/-! ### haltNormally -/

@[simp] theorem State.haltNormally_v : s.haltNormally.v = s.v := rfl
@[simp] theorem State.haltNormally_i : s.haltNormally.i = s.i := rfl
@[simp] theorem State.haltNormally_pc : s.haltNormally.pc = s.pc := rfl
@[simp] theorem State.haltNormally_stack : s.haltNormally.stack = s.stack := rfl
@[simp] theorem State.haltNormally_sp : s.haltNormally.sp = s.sp := rfl
@[simp] theorem State.haltNormally_mem : s.haltNormally.mem = s.mem := rfl
@[simp] theorem State.haltNormally_display : s.haltNormally.display = s.display := rfl
@[simp] theorem State.haltNormally_delayTimer : s.haltNormally.delayTimer = s.delayTimer := rfl
@[simp] theorem State.haltNormally_soundTimer : s.haltNormally.soundTimer = s.soundTimer := rfl
@[simp] theorem State.haltNormally_keys : s.haltNormally.keys = s.keys := rfl
@[simp] theorem State.haltNormally_prevKeys : s.haltNormally.prevKeys = s.prevKeys := rfl
@[simp] theorem State.haltNormally_drawPending : s.haltNormally.drawPending = s.drawPending := rfl
@[simp] theorem State.haltNormally_halted : s.haltNormally.halted = true := rfl
@[simp] theorem State.haltNormally_awaitingKey : s.haltNormally.awaitingKey = s.awaitingKey := rfl
@[simp] theorem State.haltNormally_keyTarget : s.haltNormally.keyTarget = s.keyTarget := rfl
@[simp] theorem State.haltNormally_rngState : s.haltNormally.rngState = s.rngState := rfl
@[simp] theorem State.haltNormally_stop : s.haltNormally.stop = .halt := rfl

/-! ### raise -/

@[simp] theorem State.raise_v (k : ErrorKind) (c : Word) : (s.raise k c).v = s.v := rfl
@[simp] theorem State.raise_i (k : ErrorKind) (c : Word) : (s.raise k c).i = s.i := rfl
@[simp] theorem State.raise_pc (k : ErrorKind) (c : Word) : (s.raise k c).pc = s.pc := rfl
@[simp] theorem State.raise_stack (k : ErrorKind) (c : Word) : (s.raise k c).stack = s.stack := rfl
@[simp] theorem State.raise_sp (k : ErrorKind) (c : Word) : (s.raise k c).sp = s.sp := rfl
@[simp] theorem State.raise_mem (k : ErrorKind) (c : Word) : (s.raise k c).mem = s.mem := rfl
@[simp] theorem State.raise_display (k : ErrorKind) (c : Word) : (s.raise k c).display = s.display := rfl
@[simp] theorem State.raise_delayTimer (k : ErrorKind) (c : Word) : (s.raise k c).delayTimer = s.delayTimer := rfl
@[simp] theorem State.raise_soundTimer (k : ErrorKind) (c : Word) : (s.raise k c).soundTimer = s.soundTimer := rfl
@[simp] theorem State.raise_keys (k : ErrorKind) (c : Word) : (s.raise k c).keys = s.keys := rfl
@[simp] theorem State.raise_prevKeys (k : ErrorKind) (c : Word) : (s.raise k c).prevKeys = s.prevKeys := rfl
@[simp] theorem State.raise_drawPending (k : ErrorKind) (c : Word) : (s.raise k c).drawPending = s.drawPending := rfl
@[simp] theorem State.raise_halted (k : ErrorKind) (c : Word) : (s.raise k c).halted = true := rfl
@[simp] theorem State.raise_awaitingKey (k : ErrorKind) (c : Word) : (s.raise k c).awaitingKey = s.awaitingKey := rfl
@[simp] theorem State.raise_keyTarget (k : ErrorKind) (c : Word) : (s.raise k c).keyTarget = s.keyTarget := rfl
@[simp] theorem State.raise_rngState (k : ErrorKind) (c : Word) : (s.raise k c).rngState = s.rngState := rfl
@[simp] theorem State.raise_stop (k : ErrorKind) (c : Word) : (s.raise k c).stop = .error k c := rfl

/-! ### tick -/

@[simp] theorem State.tick_v : s.tick.v = s.v := rfl
@[simp] theorem State.tick_i : s.tick.i = s.i := rfl
@[simp] theorem State.tick_pc : s.tick.pc = s.pc := rfl
@[simp] theorem State.tick_stack : s.tick.stack = s.stack := rfl
@[simp] theorem State.tick_sp : s.tick.sp = s.sp := rfl
@[simp] theorem State.tick_mem : s.tick.mem = s.mem := rfl
@[simp] theorem State.tick_display : s.tick.display = s.display := rfl
@[simp] theorem State.tick_delayTimer : s.tick.delayTimer = tickTimer s.delayTimer := rfl
@[simp] theorem State.tick_soundTimer : s.tick.soundTimer = tickTimer s.soundTimer := rfl
@[simp] theorem State.tick_keys : s.tick.keys = s.keys := rfl
@[simp] theorem State.tick_prevKeys : s.tick.prevKeys = s.prevKeys := rfl
@[simp] theorem State.tick_drawPending : s.tick.drawPending = s.drawPending := rfl
@[simp] theorem State.tick_halted : s.tick.halted = s.halted := rfl
@[simp] theorem State.tick_awaitingKey : s.tick.awaitingKey = s.awaitingKey := rfl
@[simp] theorem State.tick_keyTarget : s.tick.keyTarget = s.keyTarget := rfl
@[simp] theorem State.tick_rngState : s.tick.rngState = s.rngState := rfl
@[simp] theorem State.tick_stop : s.tick.stop = s.stop := rfl

/-! ### setRegFlag -/

@[simp] theorem State.setRegFlag_v (x : RegIdx) (b : Byte) (f : Bool) : (s.setRegFlag x b f).v = (s.v.set x b).set vF (flagByte f) := rfl
@[simp] theorem State.setRegFlag_i (x : RegIdx) (b : Byte) (f : Bool) : (s.setRegFlag x b f).i = s.i := rfl
@[simp] theorem State.setRegFlag_pc (x : RegIdx) (b : Byte) (f : Bool) : (s.setRegFlag x b f).pc = s.pc := rfl
@[simp] theorem State.setRegFlag_stack (x : RegIdx) (b : Byte) (f : Bool) : (s.setRegFlag x b f).stack = s.stack := rfl
@[simp] theorem State.setRegFlag_sp (x : RegIdx) (b : Byte) (f : Bool) : (s.setRegFlag x b f).sp = s.sp := rfl
@[simp] theorem State.setRegFlag_mem (x : RegIdx) (b : Byte) (f : Bool) : (s.setRegFlag x b f).mem = s.mem := rfl
@[simp] theorem State.setRegFlag_display (x : RegIdx) (b : Byte) (f : Bool) : (s.setRegFlag x b f).display = s.display := rfl
@[simp] theorem State.setRegFlag_delayTimer (x : RegIdx) (b : Byte) (f : Bool) : (s.setRegFlag x b f).delayTimer = s.delayTimer := rfl
@[simp] theorem State.setRegFlag_soundTimer (x : RegIdx) (b : Byte) (f : Bool) : (s.setRegFlag x b f).soundTimer = s.soundTimer := rfl
@[simp] theorem State.setRegFlag_keys (x : RegIdx) (b : Byte) (f : Bool) : (s.setRegFlag x b f).keys = s.keys := rfl
@[simp] theorem State.setRegFlag_prevKeys (x : RegIdx) (b : Byte) (f : Bool) : (s.setRegFlag x b f).prevKeys = s.prevKeys := rfl
@[simp] theorem State.setRegFlag_drawPending (x : RegIdx) (b : Byte) (f : Bool) : (s.setRegFlag x b f).drawPending = s.drawPending := rfl
@[simp] theorem State.setRegFlag_halted (x : RegIdx) (b : Byte) (f : Bool) : (s.setRegFlag x b f).halted = s.halted := rfl
@[simp] theorem State.setRegFlag_awaitingKey (x : RegIdx) (b : Byte) (f : Bool) : (s.setRegFlag x b f).awaitingKey = s.awaitingKey := rfl
@[simp] theorem State.setRegFlag_keyTarget (x : RegIdx) (b : Byte) (f : Bool) : (s.setRegFlag x b f).keyTarget = s.keyTarget := rfl
@[simp] theorem State.setRegFlag_rngState (x : RegIdx) (b : Byte) (f : Bool) : (s.setRegFlag x b f).rngState = s.rngState := rfl
@[simp] theorem State.setRegFlag_stop (x : RegIdx) (b : Byte) (f : Bool) : (s.setRegFlag x b f).stop = s.stop := rfl

/-! ### writeData -/

@[simp] theorem State.writeData_v (bs : List Byte) : (s.writeData bs).v = s.v := rfl
@[simp] theorem State.writeData_i (bs : List Byte) : (s.writeData bs).i = s.i := rfl
@[simp] theorem State.writeData_pc (bs : List Byte) : (s.writeData bs).pc = s.pc := rfl
@[simp] theorem State.writeData_stack (bs : List Byte) : (s.writeData bs).stack = s.stack := rfl
@[simp] theorem State.writeData_sp (bs : List Byte) : (s.writeData bs).sp = s.sp := rfl
@[simp] theorem State.writeData_mem (bs : List Byte) : (s.writeData bs).mem = s.mem.writeBytes (s.dataAddr 0) bs := rfl
@[simp] theorem State.writeData_display (bs : List Byte) : (s.writeData bs).display = s.display := rfl
@[simp] theorem State.writeData_delayTimer (bs : List Byte) : (s.writeData bs).delayTimer = s.delayTimer := rfl
@[simp] theorem State.writeData_soundTimer (bs : List Byte) : (s.writeData bs).soundTimer = s.soundTimer := rfl
@[simp] theorem State.writeData_keys (bs : List Byte) : (s.writeData bs).keys = s.keys := rfl
@[simp] theorem State.writeData_prevKeys (bs : List Byte) : (s.writeData bs).prevKeys = s.prevKeys := rfl
@[simp] theorem State.writeData_drawPending (bs : List Byte) : (s.writeData bs).drawPending = s.drawPending := rfl
@[simp] theorem State.writeData_halted (bs : List Byte) : (s.writeData bs).halted = s.halted := rfl
@[simp] theorem State.writeData_awaitingKey (bs : List Byte) : (s.writeData bs).awaitingKey = s.awaitingKey := rfl
@[simp] theorem State.writeData_keyTarget (bs : List Byte) : (s.writeData bs).keyTarget = s.keyTarget := rfl
@[simp] theorem State.writeData_rngState (bs : List Byte) : (s.writeData bs).rngState = s.rngState := rfl
@[simp] theorem State.writeData_stop (bs : List Byte) : (s.writeData bs).stop = s.stop := rfl

/-! ### recordSample -/

@[simp] theorem State.recordSample_v (t : State) : (s.recordSample t).v = t.v := rfl
@[simp] theorem State.recordSample_i (t : State) : (s.recordSample t).i = t.i := rfl
@[simp] theorem State.recordSample_pc (t : State) : (s.recordSample t).pc = t.pc := rfl
@[simp] theorem State.recordSample_stack (t : State) : (s.recordSample t).stack = t.stack := rfl
@[simp] theorem State.recordSample_sp (t : State) : (s.recordSample t).sp = t.sp := rfl
@[simp] theorem State.recordSample_mem (t : State) : (s.recordSample t).mem = t.mem := rfl
@[simp] theorem State.recordSample_display (t : State) : (s.recordSample t).display = t.display := rfl
@[simp] theorem State.recordSample_delayTimer (t : State) : (s.recordSample t).delayTimer = t.delayTimer := rfl
@[simp] theorem State.recordSample_soundTimer (t : State) : (s.recordSample t).soundTimer = t.soundTimer := rfl
@[simp] theorem State.recordSample_keys (t : State) : (s.recordSample t).keys = t.keys := rfl
@[simp] theorem State.recordSample_prevKeys (t : State) : (s.recordSample t).prevKeys = s.keys := rfl
@[simp] theorem State.recordSample_drawPending (t : State) : (s.recordSample t).drawPending = t.drawPending := rfl
@[simp] theorem State.recordSample_halted (t : State) : (s.recordSample t).halted = t.halted := rfl
@[simp] theorem State.recordSample_awaitingKey (t : State) : (s.recordSample t).awaitingKey = t.awaitingKey := rfl
@[simp] theorem State.recordSample_keyTarget (t : State) : (s.recordSample t).keyTarget = t.keyTarget := rfl
@[simp] theorem State.recordSample_rngState (t : State) : (s.recordSample t).rngState = t.rngState := rfl
@[simp] theorem State.recordSample_stop (t : State) : (s.recordSample t).stop = t.stop := rfl

/-! ### randomByte -/

@[simp] theorem State.randomByte_v : s.randomByte.2.v = s.v := rfl
@[simp] theorem State.randomByte_i : s.randomByte.2.i = s.i := rfl
@[simp] theorem State.randomByte_pc : s.randomByte.2.pc = s.pc := rfl
@[simp] theorem State.randomByte_stack : s.randomByte.2.stack = s.stack := rfl
@[simp] theorem State.randomByte_sp : s.randomByte.2.sp = s.sp := rfl
@[simp] theorem State.randomByte_mem : s.randomByte.2.mem = s.mem := rfl
@[simp] theorem State.randomByte_display : s.randomByte.2.display = s.display := rfl
@[simp] theorem State.randomByte_delayTimer : s.randomByte.2.delayTimer = s.delayTimer := rfl
@[simp] theorem State.randomByte_soundTimer : s.randomByte.2.soundTimer = s.soundTimer := rfl
@[simp] theorem State.randomByte_keys : s.randomByte.2.keys = s.keys := rfl
@[simp] theorem State.randomByte_prevKeys : s.randomByte.2.prevKeys = s.prevKeys := rfl
@[simp] theorem State.randomByte_drawPending : s.randomByte.2.drawPending = s.drawPending := rfl
@[simp] theorem State.randomByte_halted : s.randomByte.2.halted = s.halted := rfl
@[simp] theorem State.randomByte_awaitingKey : s.randomByte.2.awaitingKey = s.awaitingKey := rfl
@[simp] theorem State.randomByte_keyTarget : s.randomByte.2.keyTarget = s.keyTarget := rfl
@[simp] theorem State.randomByte_rngState : s.randomByte.2.rngState = (pRng s.rngState).2 := rfl
@[simp] theorem State.randomByte_stop : s.randomByte.2.stop = s.stop := rfl
@[simp] theorem State.randomByte_fst : s.randomByte.1 = Config.rngByte s.rngState.seed s.rngState.drawn := rfl

/-! ### Reading a register -/

@[simp] theorem State.reg_setReg_self (x : RegIdx) (b : Byte) : (s.setReg x b).reg x = b := by
  simp [State.reg]

theorem State.reg_setReg_other {x y : RegIdx} (h : x ≠ y) (b : Byte) : (s.setReg x b).reg y = s.reg y := by
  have h' : x.val ≠ y.val := fun e => h (Fin.ext e)
  simp [State.reg, Vector.getElem_set_ne, h']

/-- The flag is what `VF` keeps, whatever register the result went to (R32). -/
@[simp] theorem State.reg_setRegFlag_vF (x : RegIdx) (b : Byte) (f : Bool) :
    (s.setRegFlag x b f).reg vF = flagByte f := by
  simp [State.setRegFlag]

theorem State.reg_setRegFlag_dest {x : RegIdx} (h : x ≠ vF) (b : Byte) (f : Bool) :
    (s.setRegFlag x b f).reg x = b := by
  rw [State.setRegFlag, State.reg_setReg_other _ (Ne.symm h), State.reg_setReg_self]

theorem State.reg_setRegFlag_other {x y : RegIdx} (hx : x ≠ y) (hf : y ≠ vF) (b : Byte) (f : Bool) :
    (s.setRegFlag x b f).reg y = s.reg y := by
  rw [State.setRegFlag, State.reg_setReg_other _ (Ne.symm hf), State.reg_setReg_other _ hx]

@[simp] theorem State.reg_advance (x : RegIdx) : s.advance.reg x = s.reg x := rfl

/-! ### The state after reset -/

@[simp] theorem State.reset_mem : State.reset.mem = [] := rfl
@[simp] theorem State.reset_pc : State.reset.pc = 0x200 := rfl
@[simp] theorem State.reset_halted : State.reset.halted = false := rfl
@[simp] theorem State.reset_awaitingKey : State.reset.awaitingKey = false := rfl
@[simp] theorem State.reset_stop : State.reset.stop = .running := rfl

end Sys2Proof.Machine
end

