-- ==== Sys2Proof/Laws/Display.lean ====
section
/-! SUPPORT. What flipping a pixel, drawing a row and drawing a sprite do to each pixel and to the
collision flag (R270, R272). -/

namespace Sys2Proof.Machine

/-! ### Pixels -/

/-- A pixel is named by its coordinates modulo the size of the display. -/
theorem Display.pixel_congr (d : Display) {c c' r r' : Nat} (hc : c % 64 = c' % 64) (hr : r % 32 = r' % 32) :
    d.pixel c r = d.pixel c' r' := by
  simp only [Display.pixel, hc, hr]

/-- The cell `r * 64 + c` of R37 is the pixel of column `c`, row `r`. -/
theorem Display.cell_eq (d : Display) {c : Nat} (hc : c < 64) (r : Nat) : d.cell (r * 64 + c) = d.pixel c r :=
  d.pixel_congr (by omega) (by omega)

@[simp] theorem Display.pixel_clear (c r : Nat) : Display.clear.pixel c r = false := by
  simp [Display.pixel, Display.clear]

/-- Two displays with the same pixels are the same. -/
theorem Display.ext_pixel {d e : Display} (h : ∀ c < 64, ∀ r < 32, d.pixel c r = e.pixel c r) : d = e := by
  apply Vector.ext
  intro r hr
  apply Vector.ext
  intro c hc
  have := h c hc r hr
  simp only [Display.pixel, Nat.mod_eq_of_lt hr, Nat.mod_eq_of_lt hc] at this
  exact this

/-- A flip changes its pixel and no other. -/
theorem Display.pixel_flip (d : Display) (c r c' r' : Nat) :
    (d.flip c r).pixel c' r' =
      if c % 64 = c' % 64 ∧ r % 32 = r' % 32 then !d.pixel c' r' else d.pixel c' r' := by
  have hr := Nat.mod_lt r (show 0 < 32 by decide)
  by_cases h1 : r % 32 = r' % 32
  · by_cases h2 : c % 64 = c' % 64
    · rw [if_pos ⟨h2, h1⟩, ← d.pixel_congr h2 h1]
      simp [Display.flip, Display.pixel, h1, h2]
    · rw [if_neg fun h => h2 h.1]
      simp [Display.flip, Display.pixel, h1, Vector.getElem_set_ne, h2]
  · rw [if_neg fun h => h1 h.2]
    simp [Display.flip, Display.pixel, Vector.getElem_set_ne, h1]

/-! ### One row -/

/-- Whether one of the columns `ks` of a sprite's row is a 1 bit over the pixel of column `c`, row `r`. -/
def RowCovers (byte : Byte) (x0 y : Nat) (ks : List Nat) (c r : Nat) : Prop :=
  ∃ k ∈ ks, byte.getLsbD (7 - k) = true ∧ (x0 + k) % 64 = c % 64 ∧ y % 32 = r % 32

theorem Blit.dot_pixel (b : Blit) (bit : Bool) (c r c' r' : Nat) :
    (b.dot bit c r).display.pixel c' r' =
      if bit = true ∧ c % 64 = c' % 64 ∧ r % 32 = r' % 32 then !b.display.pixel c' r'
      else b.display.pixel c' r' := by
  unfold Blit.dot
  cases bit
  · simp
  · simpa using b.display.pixel_flip c r c' r'

theorem Blit.dot_collision (b : Blit) (bit : Bool) (c r : Nat) :
    (b.dot bit c r).collision = true ↔ b.collision = true ∨ bit = true ∧ b.display.pixel c r = true := by
  unfold Blit.dot
  cases bit <;> simp

/-- Columns of one row, no two of them over the same pixel: the covered pixels flip and no other. -/
theorem Blit.dots_pixel (byte : Byte) (x0 y : Nat) (ks : List Nat)
    (hks : ks.Pairwise fun j k => (x0 + j) % 64 ≠ (x0 + k) % 64) (b : Blit) (c r : Nat) :
    (RowCovers byte x0 y ks c r →
      (ks.foldl (fun b k => b.dot (byte.getLsbD (7 - k)) (x0 + k) y) b).display.pixel c r =
        !b.display.pixel c r) ∧
    (¬RowCovers byte x0 y ks c r →
      (ks.foldl (fun b k => b.dot (byte.getLsbD (7 - k)) (x0 + k) y) b).display.pixel c r =
        b.display.pixel c r) := by
  induction ks generalizing b with
  | nil => exact ⟨fun ⟨_, h, _⟩ => (List.not_mem_nil h).elim, fun _ => rfl⟩
  | cons k ks ih =>
    obtain ⟨hk, hks⟩ := List.pairwise_cons.1 hks
    obtain ⟨ih1, ih2⟩ := ih hks (b.dot (byte.getLsbD (7 - k)) (x0 + k) y)
    rw [Blit.dot_pixel] at ih1 ih2
    rw [List.foldl_cons]
    by_cases h : byte.getLsbD (7 - k) = true ∧ (x0 + k) % 64 = c % 64 ∧ y % 32 = r % 32
    · have hno : ¬RowCovers byte x0 y ks c r := fun ⟨j, hj, _, h2, _⟩ => hk j hj (h.2.1.trans h2.symm)
      rw [if_pos h] at ih2
      exact ⟨fun _ => ih2 hno, fun hc => (hc ⟨k, by simp, h⟩).elim⟩
    · rw [if_neg h] at ih1 ih2
      refine ⟨fun ⟨j, hj, hc⟩ => ih1 ?_, fun hc => ih2 fun ⟨j, hj, h'⟩ => hc ⟨j, by simp [hj], h'⟩⟩
      rcases List.mem_cons.1 hj with rfl | hj
      · exact (h hc).elim
      · exact ⟨j, hj, hc⟩

theorem Blit.dots_collision (byte : Byte) (x0 y : Nat) (ks : List Nat)
    (hks : ks.Pairwise fun j k => (x0 + j) % 64 ≠ (x0 + k) % 64) (b : Blit) :
    (ks.foldl (fun b k => b.dot (byte.getLsbD (7 - k)) (x0 + k) y) b).collision = true ↔
      b.collision = true ∨ ∃ k ∈ ks, byte.getLsbD (7 - k) = true ∧ b.display.pixel (x0 + k) y = true := by
  induction ks generalizing b with
  | nil => simp
  | cons k ks ih =>
    obtain ⟨hk, hks⟩ := List.pairwise_cons.1 hks
    rw [List.foldl_cons, ih hks, Blit.dot_collision]
    have hpix (j : Nat) (hj : j ∈ ks) :
        (b.dot (byte.getLsbD (7 - k)) (x0 + k) y).display.pixel (x0 + j) y = b.display.pixel (x0 + j) y := by
      rw [Blit.dot_pixel, if_neg fun h => hk j hj h.2.1]
    constructor
    · rintro ((h | h) | ⟨j, hj, h1, h2⟩)
      · exact .inl h
      · exact .inr ⟨k, by simp, h⟩
      · exact .inr ⟨j, by simp [hj], h1, by rw [← hpix j hj]; exact h2⟩
    · rintro (h | ⟨j, hj, h1, h2⟩)
      · exact .inl (.inl h)
      · rcases List.mem_cons.1 hj with rfl | hj
        · exact .inl (.inr ⟨h1, h2⟩)
        · exact .inr ⟨j, hj, h1, by rw [hpix j hj]; exact h2⟩

/-- The eight columns of a row. -/
def rowColumns : List Nat := [0, 1, 2, 3, 4, 5, 6, 7]

theorem mem_rowColumns {k : Nat} : k ∈ rowColumns ↔ k < 8 := by
  simp [rowColumns]
  omega

theorem rowColumns_apart (x0 : Nat) : rowColumns.Pairwise fun j k => (x0 + j) % 64 ≠ (x0 + k) % 64 := by
  have h : rowColumns.Pairwise fun j k => j < k ∧ k < 8 := by decide
  exact h.imp fun _ => by omega

/-! ### A sprite -/

/-- Whether a sprite at column `x0` and row `y0` has a 1 bit over the pixel of column `c`, row `r`. -/
def SpriteCovers (bytes : List Byte) (x0 y0 c r : Nat) : Prop :=
  ∃ j, ∃ h : j < bytes.length, RowCovers bytes[j] x0 (y0 + j) rowColumns c r

theorem not_spriteCovers_nil {x0 y0 c r : Nat} : ¬SpriteCovers [] x0 y0 c r :=
  fun ⟨_, h, _⟩ => Nat.not_lt_zero _ h

theorem spriteCovers_cons {byte : Byte} {bytes : List Byte} {x0 y0 c r : Nat} :
    SpriteCovers (byte :: bytes) x0 y0 c r ↔
      RowCovers byte x0 y0 rowColumns c r ∨ SpriteCovers bytes x0 (y0 + 1) c r := by
  constructor
  · rintro ⟨j, hj, h⟩
    cases j with
    | zero => exact .inl h
    | succ j =>
      refine .inr ⟨j, by simpa using hj, ?_⟩
      rwa [Nat.add_right_comm, Nat.add_assoc]
  · rintro (h | ⟨j, hj, h⟩)
    · exact ⟨0, by simp, h⟩
    · refine ⟨j + 1, by simpa using hj, ?_⟩
      rw [Nat.add_right_comm, Nat.add_assoc] at h
      exact h

/-- The rows below a row cover none of its pixels (at most 32 rows, R270). -/
theorem not_spriteCovers_below {bytes : List Byte} {x0 y0 c r : Nat} (hlen : bytes.length < 32)
    (hr : y0 % 32 = r % 32) : ¬SpriteCovers bytes x0 (y0 + 1) c r := by
  rintro ⟨j, hj, k, -, -, -, h⟩
  omega

/-- Drawing a sprite flips the pixels it covers and no other. -/
theorem Blit.rows_pixel (bytes : List Byte) (hlen : bytes.length ≤ 32) (x0 y0 : Nat) (b : Blit) (c r : Nat) :
    (SpriteCovers bytes x0 y0 c r →
      (Blit.rows b bytes x0 y0).display.pixel c r = !b.display.pixel c r) ∧
    (¬SpriteCovers bytes x0 y0 c r →
      (Blit.rows b bytes x0 y0).display.pixel c r = b.display.pixel c r) := by
  induction bytes generalizing b y0 with
  | nil => exact ⟨fun h => (not_spriteCovers_nil h).elim, fun _ => rfl⟩
  | cons byte bytes ih =>
    rw [List.length_cons] at hlen
    obtain ⟨ih1, ih2⟩ := ih (by omega) (y0 + 1) (b.row byte x0 y0)
    obtain ⟨h1, h2⟩ := Blit.dots_pixel byte x0 y0 rowColumns (rowColumns_apart x0) b c r
    rw [spriteCovers_cons]
    by_cases hrow : RowCovers byte x0 y0 rowColumns c r
    · have hno : ¬SpriteCovers bytes x0 (y0 + 1) c r := by
        obtain ⟨_, -, -, -, hr⟩ := hrow
        exact not_spriteCovers_below (by omega) hr
      exact ⟨fun _ => (ih2 hno).trans (h1 hrow), fun h => (h (.inl hrow)).elim⟩
    · refine ⟨fun h => (ih1 (h.resolve_left hrow)).trans (by rw [Blit.row]; exact congrArg _ (h2 hrow)),
        fun h => (ih2 fun h' => h (.inr h')).trans (h2 hrow)⟩

/-- The collision flag of a draw: one of the pixels under the sprite was 1 before the draw. -/
theorem Blit.rows_collision (bytes : List Byte) (hlen : bytes.length ≤ 32) (x0 y0 : Nat) (b : Blit) :
    (Blit.rows b bytes x0 y0).collision = true ↔
      b.collision = true ∨
        ∃ c < 64, ∃ r < 32, SpriteCovers bytes x0 y0 c r ∧ b.display.pixel c r = true := by
  induction bytes generalizing b y0 with
  | nil => simp [Blit.rows, not_spriteCovers_nil]
  | cons byte bytes ih =>
    rw [List.length_cons] at hlen
    have hrow := Blit.dots_collision byte x0 y0 rowColumns (rowColumns_apart x0) b
    have hpix := Blit.dots_pixel byte x0 y0 rowColumns (rowColumns_apart x0) b
    rw [Blit.rows, ih (by omega) (y0 + 1) (b.row byte x0 y0)]
    have hbelow {c r : Nat} (h : SpriteCovers bytes x0 (y0 + 1) c r) :
        (b.row byte x0 y0).display.pixel c r = b.display.pixel c r := by
      refine (hpix c r).2 ?_
      rintro ⟨_, -, -, -, hr⟩
      exact not_spriteCovers_below (by omega) hr h
    constructor
    · rintro (h | ⟨c, hc, r, hr, h1, h2⟩)
      · rcases hrow.1 h with h | ⟨k, hk, h1, h2⟩
        · exact .inl h
        · refine .inr ⟨(x0 + k) % 64, Nat.mod_lt _ (by decide), y0 % 32, Nat.mod_lt _ (by decide),
            spriteCovers_cons.2 (.inl ⟨k, hk, h1, by simp, by simp⟩), ?_⟩
          rw [← h2]
          exact b.display.pixel_congr (by simp) (by simp)
      · exact .inr ⟨c, hc, r, hr, spriteCovers_cons.2 (.inr h1), by rw [← hbelow h1]; exact h2⟩
    · rintro (h | ⟨c, hc, r, hr, h1, h2⟩)
      · exact .inl (hrow.2 (.inl h))
      · rcases spriteCovers_cons.1 h1 with ⟨k, hk, hb, hx, hy⟩ | h1
        · refine .inl (hrow.2 (.inr ⟨k, hk, hb, ?_⟩))
          rw [← h2]
          exact b.display.pixel_congr hx hy
        · exact .inr ⟨c, hc, r, hr, h1, by rw [hbelow h1]; exact h2⟩

end Sys2Proof.Machine
end

