-- ==== Sys2Proof/Laws/Memory.lean ====
section
/-! SUPPORT. The laws of memory: a read after a write, and that every write keeps the canonical form. -/

namespace Sys2Proof.Machine

theorem Memory.wf_nil : Memory.wf [] := ⟨.nil, by simp⟩

theorem Memory.wf_tail {c : Host.Cell} {m : Memory} (h : Memory.wf (c :: m)) : Memory.wf m :=
  ⟨(List.pairwise_cons.1 h.1).2, fun d hd => h.2 d (List.mem_cons_of_mem _ hd)⟩

theorem Memory.head_lt {c : Host.Cell} {m : Memory} (h : Memory.wf (c :: m)) : ∀ d ∈ m, c.1 < d.1 :=
  (List.pairwise_cons.1 h.1).1

/-- An address no entry lists reads as its construction value. -/
theorem Memory.read_unlisted {m : Memory} {a : Nat} (h : ∀ c ∈ m, c.1 ≠ a) :
    m.read a = Memory.initial a := by
  induction m with
  | nil => rfl
  | cons c m ih =>
    obtain ⟨b, v⟩ := c
    have hb : a ≠ b := fun e => h (b, v) (by simp) e.symm
    rw [Memory.read, if_neg hb, ih fun c hc => h c (List.mem_cons_of_mem _ hc)]

theorem Memory.mem_entry {a : Nat} {v : Byte} {c : Host.Cell} (h : c ∈ Memory.entry a v) :
    c = (a, v) ∧ v ≠ Memory.initial a := by
  unfold Memory.entry at h
  split at h
  · cases h
  · exact ⟨by simpa using h, ‹_›⟩

/-- Reading past the entry of an address. -/
theorem Memory.read_entry_append (a : Nat) (v : Byte) (m : Memory) (b : Nat) :
    (Memory.entry a v ++ m : Memory).read b =
      if b = a then (if v = Memory.initial a then m.read a else v) else m.read b := by
  unfold Memory.entry
  by_cases hv : v = Memory.initial a <;> by_cases hb : b = a <;> simp [hv, hb, Memory.read]

/-- A write lists no address but its own and those listed before. -/
theorem Memory.mem_write {m : Memory} {a : Nat} {v : Byte} {c : Host.Cell} (h : c ∈ m.write a v) :
    c ∈ m ∨ c = (a, v) ∧ v ≠ Memory.initial a := by
  induction m with
  | nil => exact .inr (Memory.mem_entry h)
  | cons d m ih =>
    obtain ⟨b, w⟩ := d
    rw [Memory.write] at h
    split_ifs at h with h1 h2
    · rcases List.mem_append.1 h with h | h
      · exact .inr (Memory.mem_entry h)
      · exact .inl h
    · rcases List.mem_append.1 h with h | h
      · exact .inr (Memory.mem_entry h)
      · exact .inl (List.mem_cons_of_mem _ h)
    · rcases List.mem_cons.1 h with rfl | h
      · exact .inl (by simp)
      · rcases ih h with h | h
        · exact .inl (List.mem_cons_of_mem _ h)
        · exact .inr h

/-- Consing the entry of a lower address keeps the canonical form. -/
theorem Memory.wf_entry_append {a : Nat} {v : Byte} {m : Memory} (ha : a < Config.memSize)
    (hm : Memory.wf m) (hlt : ∀ c ∈ m, a < c.1) : Memory.wf (Memory.entry a v ++ m) := by
  unfold Memory.entry
  split
  · simpa using hm
  · refine ⟨List.pairwise_cons.2 ⟨hlt, hm.1⟩, fun c hc => ?_⟩
    rcases List.mem_cons.1 hc with rfl | hc
    · exact ⟨ha, ‹_›⟩
    · exact hm.2 c hc

/-- A write keeps the canonical form. -/
theorem Memory.wf_write {m : Memory} {a : Nat} {v : Byte} (hm : m.wf) (ha : a < Config.memSize) :
    (m.write a v).wf := by
  induction m with
  | nil => simpa [Memory.write] using Memory.wf_entry_append ha Memory.wf_nil (by simp)
  | cons d m ih =>
    obtain ⟨b, w⟩ := d
    have hb := Memory.head_lt hm
    rw [Memory.write]
    split_ifs with h1 h2
    · refine Memory.wf_entry_append ha hm fun c hc => ?_
      rcases List.mem_cons.1 hc with rfl | hc
      · exact h1
      · exact h1.trans (hb c hc)
    · subst h2
      exact Memory.wf_entry_append ha (Memory.wf_tail hm) hb
    · refine ⟨List.pairwise_cons.2 ⟨fun c hc => ?_, (ih (Memory.wf_tail hm)).1⟩, fun c hc => ?_⟩
      · rcases Memory.mem_write hc with hc | ⟨rfl, -⟩
        · exact hb c hc
        · show b < a; omega
      · rcases List.mem_cons.1 hc with rfl | hc
        · exact hm.2 (b, w) (by simp)
        · exact (ih (Memory.wf_tail hm)).2 c hc

/-- A read after a write: the value written at its address, and every other address as before. -/
theorem Memory.read_write {m : Memory} (hm : m.wf) (a : Nat) (v : Byte) (b : Nat) :
    (m.write a v).read b = if b = a then v else m.read b := by
  induction m with
  | nil =>
    have := Memory.read_entry_append a v [] b
    rw [List.append_nil] at this
    rw [Memory.write, this]
    split_ifs with h1 h2
    · exact h2.symm
    · rfl
    · rfl
  | cons d m ih =>
    obtain ⟨c, w⟩ := d
    have hc := Memory.head_lt hm
    have unlisted (hlt : ∀ d ∈ m, a < d.1) : Memory.read m a = Memory.initial a :=
      Memory.read_unlisted fun d hd => Nat.ne_of_gt (hlt d hd)
    rw [Memory.write]
    rcases Nat.lt_trichotomy a c with h | h | h
    · rw [if_pos h, Memory.read_entry_append]
      congr 1
      rw [Memory.read, if_neg (Nat.ne_of_lt h), unlisted fun d hd => h.trans (hc d hd)]
      split_ifs with hv <;> simp [hv]
    · subst h
      rw [if_neg (Nat.lt_irrefl a), if_pos rfl, Memory.read_entry_append, Memory.read]
      by_cases hb : b = a
      · rw [if_pos hb, if_pos hb, unlisted hc]
        split_ifs with hv <;> simp [hv]
      · simp [hb]
    · rw [if_neg (Nat.lt_asymm h), if_neg (Nat.ne_of_gt h), Memory.read, Memory.read, ih (Memory.wf_tail hm)]
      split_ifs with h1 h2 <;> first | rfl | omega

theorem Memory.length_readBytes (m : Memory) (a n : Nat) : (m.readBytes a n).length = n := by
  induction n generalizing a with
  | zero => rfl
  | succ n ih => simp [Memory.readBytes, ih]

/-- The `k`-th byte of a read stands at `a + k`. -/
theorem Memory.getElem_readBytes (m : Memory) (a n k : Nat) (h : k < (m.readBytes a n).length) :
    (m.readBytes a n)[k] = m.read (a + k) := by
  induction n generalizing a k with
  | zero => simp [Memory.readBytes] at h
  | succ n ih =>
    cases k with
    | zero => rfl
    | succ k =>
      simp only [Memory.readBytes, List.getElem_cons_succ]
      rw [ih (a + 1) k (by simpa [Memory.readBytes] using h), Nat.add_assoc, Nat.add_comm 1 k]

/-- Writing bytes inside memory keeps the canonical form. -/
theorem Memory.wf_writeBytes {m : Memory} (hm : m.wf) (a : Nat) (bs : List Byte)
    (h : a + bs.length ≤ Config.memSize) : (m.writeBytes a bs).wf := by
  induction bs generalizing m a with
  | nil => exact hm
  | cons b bs ih =>
    rw [List.length_cons] at h
    exact ih (Memory.wf_write hm (by omega)) (a + 1) (by omega)

/-- A read after writing bytes from `a` on: the byte written there, and every other address as before. -/
theorem Memory.read_writeBytes {m : Memory} (hm : m.wf) (a : Nat) (bs : List Byte)
    (h : a + bs.length ≤ Config.memSize) (c : Nat) :
    (m.writeBytes a bs).read c =
      if hc : a ≤ c ∧ c - a < bs.length then bs[c - a] else m.read c := by
  induction bs generalizing m a with
  | nil => simp [Memory.writeBytes]
  | cons b bs ih =>
    rw [List.length_cons] at h
    rw [Memory.writeBytes, ih (Memory.wf_write hm (by omega)) (a + 1) (by omega),
      Memory.read_write hm]
    by_cases h1 : c = a
    · subst h1
      simp
    · by_cases h2 : a + 1 ≤ c ∧ c - (a + 1) < bs.length
      · have h3 : a ≤ c ∧ c - a < (b :: bs).length := by rw [List.length_cons]; omega
        have h4 : c - a = (c - (a + 1)) + 1 := by omega
        rw [dif_pos h2, dif_pos h3]
        simp only [h4, List.getElem_cons_succ]
      · have h3 : ¬(a ≤ c ∧ c - a < (b :: bs).length) := by rw [List.length_cons]; omega
        rw [dif_neg h2, dif_neg h3, if_neg h1]

end Sys2Proof.Machine
end

