-- ==== Sys2Proof/Laws/Ops.lean ====
section
/-! SUPPORT. One lemma for each shared operation that says everything it can do. -/

namespace Sys2Proof.Machine

/-! ### Errors -/

theorem State.raised_iff (s : State) :
    s.raised = true ↔ s.halted = true ∧ ∃ kind ctx, s.stop = .error kind ctx := by
  unfold State.raised
  cases s.stop <;> simp

@[simp] theorem State.raised_raise (s : State) (k : ErrorKind) (c : Word) : (s.raise k c).raised = true := rfl

theorem State.raised_of_running {s : State} (h : s.halted = false) : s.raised = false := by
  unfold State.raised
  cases s.stop <;> simp [h]

/-! ### Results (R180) -/

theorem addByte_toNat (a b : Byte) : (addByte a b).toNat = (a.toNat + b.toNat) % 256 := by
  simp [addByte]

theorem carryOut_iff (a b : Byte) : carryOut a b = true ↔ a.toNat + b.toNat ≥ 256 := decide_eq_true_iff

theorem subByte_toNat (a b : Byte) : (subByte a b).toNat = (a.toNat + 256 - b.toNat) % 256 := by
  have := a.isLt
  have := b.isLt
  simp only [subByte, BitVec.toNat_ofInt]
  omega

theorem noBorrow_iff (a b : Byte) : noBorrow a b = true ↔ a.toNat ≥ b.toNat := decide_eq_true_iff

theorem shrByte_toNat (a : Byte) : (shrByte a).toNat = a.toNat / 2 := by
  simp [shrByte, Nat.shiftRight_eq_div_pow]

theorem shrOut_iff (a : Byte) : shrOut a = true ↔ a.toNat % 2 = 1 := by
  simp only [shrOut, BitVec.getLsbD, Nat.testBit_zero, decide_eq_true_iff]

theorem shlByte_toNat (a : Byte) : (shlByte a).toNat = a.toNat * 2 % 256 := by
  simp [shlByte, Nat.shiftLeft_eq]

theorem shlOut_iff (a : Byte) : shlOut a = true ↔ a.toNat / 128 = 1 := by
  have := a.isLt
  rw [shlOut, BitVec.getLsbD, Nat.testBit_eq_decide_div_mod_eq, decide_eq_true_iff]
  omega

theorem bcdDigits_length (b : Byte) : (bcdDigits b).length = 3 := rfl

/-! ### Stack (R143, R145) -/

theorem State.push_of_lt {s : State} (h : s.sp.val < 16) (w : Word) :
    s.push w = some { s with stack := s.stack.set s.sp.val w, sp := ⟨s.sp.val + 1, by omega⟩ } :=
  dif_pos h

theorem State.push_full {s : State} (h : s.sp.val = 16) (w : Word) : s.push w = none :=
  dif_neg (by omega)

theorem State.pop_empty {s : State} (h : s.sp.val = 0) : s.pop = none := dif_pos h

theorem State.pop_of_eq {s : State} {k : Fin 16} (h : s.sp.val = k.val + 1) :
    s.pop = some (s.stack[k], { s with sp := k.castSucc }) := by
  unfold State.pop
  rw [dif_neg (by omega)]
  have hk : s.sp.val - 1 = k.val := by omega
  simp only [hk, Option.some.injEq, Prod.mk.injEq]
  exact ⟨rfl, rfl⟩

/-! ### Data accesses (R80) -/

theorem State.dataFits_iff (s : State) (n : Nat) :
    s.dataFits n = true ↔ n = 0 ∨ s.dataAddr (n - 1) ≤ 0xFFF := by
  simp [State.dataFits]

theorem State.withData_of_fits {s : State} {n : Nat} (h : n = 0 ∨ s.dataAddr (n - 1) ≤ 0xFFF) (t : State) :
    s.withData n t = t :=
  if_pos ((s.dataFits_iff n).2 h)

theorem State.withData_of_not_fits {s : State} {n : Nat} (h : n ≠ 0 ∧ 0xFFF < s.dataAddr (n - 1)) (t : State) :
    s.withData n t = s.raise .dataAddressOutOfRange s.i :=
  if_neg fun hf => by
    rcases (s.dataFits_iff n).1 hf with h0 | h1
    · exact h.1 h0
    · omega

theorem State.withData_cases (s : State) (n : Nat) (t : State) :
    (n = 0 ∨ s.dataAddr (n - 1) ≤ 0xFFF) ∧ s.withData n t = t ∨
      (n ≠ 0 ∧ 0xFFF < s.dataAddr (n - 1)) ∧ s.withData n t = s.raise .dataAddressOutOfRange s.i := by
  by_cases h : n = 0 ∨ s.dataAddr (n - 1) ≤ 0xFFF
  · exact .inl ⟨h, State.withData_of_fits h t⟩
  · have h' : n ≠ 0 ∧ 0xFFF < s.dataAddr (n - 1) := by omega
    exact .inr ⟨h', State.withData_of_not_fits h' t⟩

/-- Registers loaded from a list, the first byte into `V[k]`. -/
theorem getElem_setRegsFrom (v : Vector Byte 16) (k : Nat) (bs : List Byte) (j : Nat) (hj : j < 16) :
    (setRegsFrom v k bs)[j] = if h : k ≤ j ∧ j - k < bs.length then bs[j - k] else v[j] := by
  induction bs generalizing v k with
  | nil => simp [setRegsFrom]
  | cons b bs ih =>
    rw [setRegsFrom, ih]
    by_cases h1 : j = k
    · subst h1
      simp
    · by_cases h2 : k + 1 ≤ j ∧ j - (k + 1) < bs.length
      · have h3 : k ≤ j ∧ j - k < (b :: bs).length := by rw [List.length_cons]; omega
        have h4 : j - k = (j - (k + 1)) + 1 := by omega
        rw [dif_pos h2, dif_pos h3]
        simp only [h4, List.getElem_cons_succ]
      · have h3 : ¬(k ≤ j ∧ j - k < (b :: bs).length) := by rw [List.length_cons]; omega
        rw [dif_neg h2, dif_neg h3]
        exact Vector.getElem_setIfInBounds_ne hj (Ne.symm h1)

/-! ### Timers (R327) -/

theorem tickTimer_toNat (t : Byte) : (tickTimer t).toNat = t.toNat - 1 := by
  unfold tickTimer
  split
  · next h => simp [h]
  · next h =>
    have h1 : t.toNat ≠ 0 := fun e => h (BitVec.eq_of_toNat_eq e)
    have := t.isLt
    rw [BitVec.toNat_sub]
    simp
    omega

/-! ### Keys (R290, R322) -/

theorem mem_keyEdges (sample prev : KeySet) (k : KeyIdx) :
    k ∈ keyEdges sample prev ↔ sample[k] = true ∧ prev[k] = false := by
  simp [keyEdges]

theorem selectKey_nil : selectKey [] = none := rfl

/-- `P_KEYSEL` picks a member of the set, whatever the free value is. -/
theorem selectKey_mem {ks : List KeyIdx} (h : ks ≠ []) : ∃ k ∈ ks, selectKey ks = some k := by
  match ks, h with
  | [k], _ => exact ⟨k, by simp, rfl⟩
  | k :: k' :: ks, _ =>
    by_cases hc : (k :: k' :: ks).contains (Config.pKeySel (k :: k' :: ks)) = true
    · exact ⟨Config.pKeySel (k :: k' :: ks), List.contains_iff_mem.1 hc, by
        simp only [selectKey]; rw [if_pos hc]⟩
    · exact ⟨k, by simp, by simp only [selectKey]; rw [if_neg hc]⟩

theorem keyOperand_of_eq {b : Byte} {k : KeyIdx} (h : b.toNat = k.val) : keyOperand b = some k := by
  unfold keyOperand
  rw [dif_pos (by omega)]
  simp [h]

theorem keyOperand_of_gt {b : Byte} (h : 0x0F < b.toNat) : keyOperand b = none := dif_neg (by omega)

theorem State.skipOnKey_cases (s : State) (x : RegIdx) (cond : Bool → Bool) :
    (∃ k : KeyIdx, (s.reg x).toNat = k.val ∧ s.skipOnKey x cond = s.skipIf (cond s.keys[k])) ∨
      0x0F < (s.reg x).toNat ∧ s.skipOnKey x cond = s.raise .keyIndexOutOfRange (zext16 (s.reg x)) := by
  unfold State.skipOnKey
  by_cases h : (s.reg x).toNat < 16
  · rw [keyOperand_of_eq (k := ⟨_, h⟩) rfl]
    exact .inl ⟨⟨_, h⟩, rfl, rfl⟩
  · rw [keyOperand_of_gt (by omega)]
    exact .inr ⟨by omega, rfl⟩

/-! ### Zero-extension -/

theorem zext16_toNat {w : Nat} (h : w ≤ 16) (v : BitVec w) : (zext16 v).toNat = v.toNat := by
  have h1 : v.toNat < 2 ^ 16 := Nat.lt_of_lt_of_le v.isLt (Nat.pow_le_pow_right (by decide) h)
  simpa [zext16] using h1

theorem zext16_eq_ofNat {w : Nat} (v : BitVec w) : zext16 v = BitVec.ofNat 16 v.toNat := by
  apply BitVec.eq_of_toNat_eq
  simp [zext16]

end Sys2Proof.Machine
end

