-- ==== Sys2Proof/Laws/PerInstr.lean ====
section
/-! SUPPORT. One fact for every constructor of `Instr`: the word the encoder writes matches, under the
mask of its row of R105, the value of that row. -/

namespace Sys2Proof.Laws.EncodeInRow

open Sys2Proof

/-- The mask and the match of each instruction's row (R105); unknown-opcode is the fallback of R104
and has the empty mask. -/
def row : Instr → Word × Word
  | .explicitHalt => (0xFFFF, 0x0000)
  | .clearDisplay => (0xFFFF, 0x00E0)
  | .ret => (0xFFFF, 0x00EE)
  | .jump _ => (0xF000, 0x1000)
  | .call _ => (0xF000, 0x2000)
  | .skipIfEqImm _ _ => (0xF000, 0x3000)
  | .skipIfNeImm _ _ => (0xF000, 0x4000)
  | .skipIfEqReg _ _ => (0xF00F, 0x5000)
  | .loadImm _ _ => (0xF000, 0x6000)
  | .addImm _ _ => (0xF000, 0x7000)
  | .move _ _ => (0xF00F, 0x8000)
  | .or _ _ => (0xF00F, 0x8001)
  | .and _ _ => (0xF00F, 0x8002)
  | .xor _ _ => (0xF00F, 0x8003)
  | .addWithCarry _ _ => (0xF00F, 0x8004)
  | .subWithBorrow _ _ => (0xF00F, 0x8005)
  | .shiftRight _ _ => (0xF00F, 0x8006)
  | .reverseSub _ _ => (0xF00F, 0x8007)
  | .shiftLeft _ _ => (0xF00F, 0x800E)
  | .skipIfNeReg _ _ => (0xF00F, 0x9000)
  | .loadIndex _ => (0xF000, 0xA000)
  | .jumpIndexed _ => (0xF000, 0xB000)
  | .random _ _ => (0xF000, 0xC000)
  | .drawSprite _ _ _ => (0xF000, 0xD000)
  | .skipIfKeyDown _ => (0xF0FF, 0xE09E)
  | .skipIfKeyUp _ => (0xF0FF, 0xE0A1)
  | .getDelay _ => (0xF0FF, 0xF007)
  | .waitForKey _ => (0xF0FF, 0xF00A)
  | .setDelay _ => (0xF0FF, 0xF015)
  | .setSound _ => (0xF0FF, 0xF018)
  | .addToIndex _ => (0xF0FF, 0xF01E)
  | .spriteAddress _ => (0xF0FF, 0xF029)
  | .storeBcd _ => (0xF0FF, 0xF033)
  | .storeRegisters _ => (0xF0FF, 0xF055)
  | .loadRegisters _ => (0xF0FF, 0xF065)
  | .unknownOpcode _ => (0x0000, 0x0000)

/-- The word of the instruction matches its row. -/
def Statement (i : Instr) : Prop := encode i &&& (row i).1 = (row i).2

/-- A word with an address field matches a row on the high nibble. -/
theorem nnn_row (op : BitVec 4) (nnn : Addr12) (c : Word) (h : c.toNat = op.toNat * 0x1000) :
    wordNnn op nnn &&& 0xF000#16 = c := by
  have := nnn.isLt
  rw [mask_op_iff, wordNnn_toNat]
  omega

/-- A word with a register field and an immediate matches a row on the high nibble. -/
theorem xnn_row (op : BitVec 4) (x : RegIdx) (nn : Byte) (c : Word) (h : c.toNat = op.toNat * 0x1000) :
    wordXnn op x nn &&& 0xF000#16 = c := by
  have := nn.isLt
  rw [mask_op_iff, wordXnn_toNat]
  omega

/-- A word with a register field and a sub-opcode matches a row on the high nibble and the low byte. -/
theorem xsub_row (op : BitVec 4) (x : RegIdx) (nn : Byte) (c : Word)
    (h : c.toNat = op.toNat * 0x1000 + nn.toNat) : wordXnn op x nn &&& 0xF0FF#16 = c := by
  have := nn.isLt
  rw [mask_op_nn_iff, wordXnn_toNat]
  omega

/-- A word with two register fields and a row count matches a row on the high nibble. -/
theorem xyn_row (op : BitVec 4) (x y : RegIdx) (n : BitVec 4) (c : Word) (h : c.toNat = op.toNat * 0x1000) :
    wordXyn op x y n &&& 0xF000#16 = c := by
  have := n.isLt
  rw [mask_op_iff, wordXyn_toNat]
  omega

/-- A word with two register fields and a sub-opcode matches a row on the high and the low nibble. -/
theorem xysub_row (op : BitVec 4) (x y : RegIdx) (n : BitVec 4) (c : Word)
    (h : c.toNat = op.toNat * 0x1000 + n.toNat) : wordXyn op x y n &&& 0xF00F#16 = c := by
  have := n.isLt
  rw [mask_op_n_iff, wordXyn_toNat]
  omega

theorem explicitHalt : Statement .explicitHalt := rfl
theorem clearDisplay : Statement .clearDisplay := rfl
theorem ret : Statement .ret := rfl
theorem jump (nnn : Addr12) : Statement (.jump nnn) := nnn_row 0x1 nnn 0x1000 rfl
theorem call (nnn : Addr12) : Statement (.call nnn) := nnn_row 0x2 nnn 0x2000 rfl
theorem skipIfEqImm (x : RegIdx) (nn : Byte) : Statement (.skipIfEqImm x nn) := xnn_row 0x3 x nn 0x3000 rfl
theorem skipIfNeImm (x : RegIdx) (nn : Byte) : Statement (.skipIfNeImm x nn) := xnn_row 0x4 x nn 0x4000 rfl
theorem skipIfEqReg (x y : RegIdx) : Statement (.skipIfEqReg x y) := xysub_row 0x5 x y 0x0 0x5000 rfl
theorem loadImm (x : RegIdx) (nn : Byte) : Statement (.loadImm x nn) := xnn_row 0x6 x nn 0x6000 rfl
theorem addImm (x : RegIdx) (nn : Byte) : Statement (.addImm x nn) := xnn_row 0x7 x nn 0x7000 rfl
theorem move (x y : RegIdx) : Statement (.move x y) := xysub_row 0x8 x y 0x0 0x8000 rfl
theorem or (x y : RegIdx) : Statement (.or x y) := xysub_row 0x8 x y 0x1 0x8001 rfl
theorem and (x y : RegIdx) : Statement (.and x y) := xysub_row 0x8 x y 0x2 0x8002 rfl
theorem xor (x y : RegIdx) : Statement (.xor x y) := xysub_row 0x8 x y 0x3 0x8003 rfl
theorem addWithCarry (x y : RegIdx) : Statement (.addWithCarry x y) := xysub_row 0x8 x y 0x4 0x8004 rfl
theorem subWithBorrow (x y : RegIdx) : Statement (.subWithBorrow x y) := xysub_row 0x8 x y 0x5 0x8005 rfl
theorem shiftRight (x y : RegIdx) : Statement (.shiftRight x y) := xysub_row 0x8 x y 0x6 0x8006 rfl
theorem reverseSub (x y : RegIdx) : Statement (.reverseSub x y) := xysub_row 0x8 x y 0x7 0x8007 rfl
theorem shiftLeft (x y : RegIdx) : Statement (.shiftLeft x y) := xysub_row 0x8 x y 0xE 0x800E rfl
theorem skipIfNeReg (x y : RegIdx) : Statement (.skipIfNeReg x y) := xysub_row 0x9 x y 0x0 0x9000 rfl
theorem loadIndex (nnn : Addr12) : Statement (.loadIndex nnn) := nnn_row 0xA nnn 0xA000 rfl
theorem jumpIndexed (nnn : Addr12) : Statement (.jumpIndexed nnn) := nnn_row 0xB nnn 0xB000 rfl
theorem random (x : RegIdx) (nn : Byte) : Statement (.random x nn) := xnn_row 0xC x nn 0xC000 rfl
theorem drawSprite (x y : RegIdx) (n : Fin 16) : Statement (.drawSprite x y n) :=
  xyn_row 0xD x y (nibble n) 0xD000 rfl
theorem skipIfKeyDown (x : RegIdx) : Statement (.skipIfKeyDown x) := xsub_row 0xE x 0x9E 0xE09E rfl
theorem skipIfKeyUp (x : RegIdx) : Statement (.skipIfKeyUp x) := xsub_row 0xE x 0xA1 0xE0A1 rfl
theorem getDelay (x : RegIdx) : Statement (.getDelay x) := xsub_row 0xF x 0x07 0xF007 rfl
theorem waitForKey (x : RegIdx) : Statement (.waitForKey x) := xsub_row 0xF x 0x0A 0xF00A rfl
theorem setDelay (x : RegIdx) : Statement (.setDelay x) := xsub_row 0xF x 0x15 0xF015 rfl
theorem setSound (x : RegIdx) : Statement (.setSound x) := xsub_row 0xF x 0x18 0xF018 rfl
theorem addToIndex (x : RegIdx) : Statement (.addToIndex x) := xsub_row 0xF x 0x1E 0xF01E rfl
theorem spriteAddress (x : RegIdx) : Statement (.spriteAddress x) := xsub_row 0xF x 0x29 0xF029 rfl
theorem storeBcd (x : RegIdx) : Statement (.storeBcd x) := xsub_row 0xF x 0x33 0xF033 rfl
theorem storeRegisters (x : RegIdx) : Statement (.storeRegisters x) := xsub_row 0xF x 0x55 0xF055 rfl
theorem loadRegisters (x : RegIdx) : Statement (.loadRegisters x) := xsub_row 0xF x 0x65 0xF065 rfl
theorem unknownOpcode (w : Word) : Statement (.unknownOpcode w) := BitVec.and_zero

end Sys2Proof.Laws.EncodeInRow
end

