-- ==== Sys2Proof/Laws/Step.lean ====
section
/-! SUPPORT. What a step does, branch by branch, and the one inversion every proof about steps uses. -/

namespace Sys2Proof.Machine

open Sys2Proof.Safety

theorem State.fetch_of_lt {s : State} (h : s.pc.toNat + 1 < 4096) :
    s.fetch = some (beWord (s.mem.read s.pc.toNat) (s.mem.read (s.pc.toNat + 1))) :=
  if_neg (by omega)

theorem State.fetch_of_ge {s : State} (h : s.pc.toNat + 1 ≥ 4096) : s.fetch = none := if_pos h

/-- The end of a step whose handler left the machine running: the tick and the sample. -/
theorem State.finish_of_running {s t : State} (h : t.halted = false) : s.finish t = s.recordSample t.tick := by
  rw [State.finish, State.raised_of_running h]
  rfl

/-- The end of a step whose handler raised an error: the sample alone. -/
theorem State.finish_of_raised {s t : State} (h : t.raised = true) : s.finish t = s.recordSample t := by
  rw [State.finish, if_pos h]

theorem step_of_halted {s : State} (h : s.halted = true) : step s = .next s := by
  simp [step, State.plan, h]

theorem step_of_waiting {s : State} (h : s.halted = false) (ha : s.awaitingKey = true) :
    step s = .next s.keyWait := by
  simp [step, State.plan, h, ha]

theorem step_of_fetch_fault {s : State} (h : Running s) (hp : s.pc.toNat + 1 ≥ 4096) :
    step s = .next (s.recordSample (s.raise .addressOutOfRange s.pc)) := by
  simp [step, State.plan, h.1, h.2, State.fetch_of_ge hp]

/-- A normal step is `exec` of the instruction at `pc`, then the end of the step (R323). -/
theorem step_of_running {s : State} {i : Instr} (h : Running s) (hi : AtInstr s i) :
    step s = match exec i s with
      | .next t => .next (s.finish t)
      | .fault r => .fault r
      | .refused r => .refused r := by
  have hp : s.plan = .execute i := by
    simp [State.plan, h.1, h.2, State.fetch_of_lt hi.1, hi.2]
  cases he : exec i s <;> simp [step, hp, he]

theorem step_of_exec {s u : State} {i : Instr} (h : Running s) (hi : AtInstr s i) (hu : exec i s = .next u) :
    step s = .next (s.finish u) := by
  rw [step_of_running h hi, hu]

/-- Everything a step can do when it answers a next state. -/
theorem step_cases {s t : State} (h : step s = .next t) :
    s.halted = true ∧ t = s ∨
    s.halted = false ∧ s.awaitingKey = true ∧ t = s.keyWait ∨
    Running s ∧ s.pc.toNat + 1 ≥ 4096 ∧ t = s.recordSample (s.raise .addressOutOfRange s.pc) ∨
    ∃ i u, Running s ∧ AtInstr s i ∧ exec i s = .next u ∧ t = s.finish u := by
  cases hh : s.halted with
  | true =>
    rw [step_of_halted hh] at h
    cases h
    exact .inl ⟨rfl, rfl⟩
  | false =>
    cases ha : s.awaitingKey with
    | true =>
      rw [step_of_waiting hh ha] at h
      cases h
      exact .inr (.inl ⟨rfl, rfl, rfl⟩)
    | false =>
      by_cases hp : s.pc.toNat + 1 ≥ 4096
      · rw [step_of_fetch_fault ⟨hh, ha⟩ hp] at h
        cases h
        exact .inr (.inr (.inl ⟨⟨hh, ha⟩, hp, rfl⟩))
      · have hi : AtInstr s _ := ⟨by omega, rfl⟩
        rw [step_of_running ⟨hh, ha⟩ hi] at h
        split at h
        · next u hu =>
          cases h
          exact .inr (.inr (.inr ⟨_, u, ⟨hh, ha⟩, hi, hu, rfl⟩))
        · cases h
        · cases h

/-- What the key-wait branch does (R322): nothing but the sample where no key shows an edge, and else the
resolution with one key that does. -/
theorem State.keyWait_cases (s : State) :
    (∀ k : KeyIdx, s.keys[k] = true → s.prevKeys[k] = true) ∧ s.keyWait = s.recordSample s ∨
    ∃ k : KeyIdx, s.keys[k] = true ∧ s.prevKeys[k] = false ∧
      s.keyWait = s.recordSample { s.setReg s.keyTarget (keyCode k) with awaitingKey := false }.advance := by
  unfold State.keyWait
  by_cases h : keyEdges s.keys s.prevKeys = []
  · refine .inl ⟨fun k hk => ?_, by rw [h, selectKey_nil]⟩
    by_contra hp
    have : k ∈ keyEdges s.keys s.prevKeys := (mem_keyEdges _ _ k).2 ⟨hk, by simpa using hp⟩
    rw [h] at this
    cases this
  · obtain ⟨k, hk, he⟩ := selectKey_mem h
    obtain ⟨h1, h2⟩ := (mem_keyEdges _ _ k).1 hk
    exact .inr ⟨k, h1, h2, by rw [he]⟩

/-! ### The placed instruction -/

/-- The word `withFetchWord` places is the one the next step fetches. -/
theorem fetch_withFetchWord {s : State} (hm : s.mem.wf) (w : Nat) :
    (s.withFetchWord 16 w).fetch = some (BitVec.ofNat 16 w) := by
  have hpc : (s.withFetchWord 16 w).pc.toNat + 1 < 4096 := by
    show (if s.pc.toNat + 1 < 4096 then s.pc else (0x200 : Word)).toNat + 1 < 4096
    split
    · assumption
    · decide
  have hw : BitVec.ofNat 16 (w % 2 ^ 16) = BitVec.ofNat 16 w := by
    apply BitVec.eq_of_toNat_eq
    simp
  rw [State.fetch_of_lt hpc]
  have hmem : (s.withFetchWord 16 w).mem =
      s.mem.writeBytes (s.withFetchWord 16 w).pc.toNat (beBytes (BitVec.ofNat 16 (w % 2 ^ 16))) := rfl
  have hlen : (s.withFetchWord 16 w).pc.toNat + (beBytes (BitVec.ofNat 16 (w % 2 ^ 16))).length
      ≤ Config.memSize := by
    show (s.withFetchWord 16 w).pc.toNat + 2 ≤ 4096
    omega
  rw [hmem, Memory.read_writeBytes hm _ _ hlen, Memory.read_writeBytes hm _ _ hlen]
  simp only [beBytes, hw]
  simp [beWord_beBytes]

end Sys2Proof.Machine
end

