-- ==== Sys2Proof/Tests/Slice0.lean ====
section
/-! SUPPORT. Tests: expected values from the rules and vectors of spec/ (95_test_vectors.md, the examples
in the rules), written out by hand; and for every statement with hypotheses, states that meet them. -/

namespace Sys2Proof.Tests

open Sys2Proof Sys2Proof.Machine Sys2Proof.Safety Sys2Proof.Statements

/-! ### Helpers -/

/-- The machine after reset. -/
abbrev z : State := State.reset

/-- Register values given by index; the others hold 0. -/
def regs (vs : List (RegIdx × Byte)) : Vector Byte 16 :=
  vs.foldl (fun v p => v.set p.1 p.2) (Vector.replicate 16 0)

/-- These keys are down. -/
def down (ks : List KeyIdx) : KeySet := ks.foldl (fun v (k : KeyIdx) => v.set k.val true) (Vector.replicate 16 false)

/-- The machine with an instruction word at `pc`. -/
def at' (s : State) (w : Nat) : State := s.withFetchWord 16 w

/-- The machine after one step of the instruction word placed at `pc`. -/
def after (s : State) (w : Nat) : Option State :=
  match step (at' s w) with
  | .next t => some t
  | _ => none

/-- The machine after one handler. -/
def ran (i : Instr) (s : State) : Option State :=
  match exec i s with
  | .next t => some t
  | _ => none

/-- What a step that raises this error leaves of `halted`, `stop` and `pc`. -/
def stopped (s : Option State) : Option (Bool × Stop × Word) := s.map fun t => (t.halted, t.stop, t.pc)

/-! ### Well-formedness: the one check, and a term it refuses -/

/-- R106: 0x6005 selects load-imm, so no unknown-opcode carries it. -/
theorem test_wellFormed_refuses_known_word : Instr.wellFormed (.unknownOpcode 0x6005) = false := by decide

/-- R107: `0123` is no 0nnn call but unknown. -/
theorem test_wellFormed_accepts_unknown_word : Instr.wellFormed (.unknownOpcode 0x0123) = true := by decide

/-! ### Decoding: words written out from R101 and R105, the four nibbles separated -/

theorem test_decode_control_flow :
    decodeWord 0b0000_0000_0000_0000 = .explicitHalt ∧
    decodeWord 0b0000_0000_1110_1110 = .ret ∧
    decodeWord 0b0001_0010_0011_0100 = .jump 0x234 ∧
    decodeWord 0b0010_1010_1011_1100 = .call 0xABC ∧
    decodeWord 0b0011_0101_1010_0001 = .skipIfEqImm 5 0xA1 ∧
    decodeWord 0b0100_0101_1010_0001 = .skipIfNeImm 5 0xA1 ∧
    decodeWord 0b0101_0001_0010_0000 = .skipIfEqReg 1 2 ∧
    decodeWord 0b1001_1110_0011_0000 = .skipIfNeReg 14 3 ∧
    decodeWord 0b1011_0010_0000_0001 = .jumpIndexed 0x201 := by decide

theorem test_decode_alu :
    decodeWord 0b0110_0101_0010_1010 = .loadImm 5 0x2A ∧
    decodeWord 0b0111_1111_1000_0001 = .addImm 15 0x81 ∧
    decodeWord 0b1000_0001_0010_0000 = .move 1 2 ∧
    decodeWord 0b1000_0001_0010_0001 = .or 1 2 ∧
    decodeWord 0b1000_0001_0010_0010 = .and 1 2 ∧
    decodeWord 0b1000_0001_0010_0011 = .xor 1 2 ∧
    decodeWord 0b1000_0001_0010_0100 = .addWithCarry 1 2 ∧
    decodeWord 0b1000_0001_0010_0101 = .subWithBorrow 1 2 ∧
    decodeWord 0b1000_0001_0010_0110 = .shiftRight 1 2 ∧
    decodeWord 0b1000_0001_0010_0111 = .reverseSub 1 2 ∧
    decodeWord 0b1000_0001_0010_1110 = .shiftLeft 1 2 ∧
    decodeWord 0b1100_0011_0000_1111 = .random 3 0x0F := by decide

theorem test_decode_index_memory :
    decodeWord 0b1010_0010_1111_0000 = .loadIndex 0x2F0 ∧
    decodeWord 0b1111_0010_0001_1110 = .addToIndex 2 ∧
    decodeWord 0b1111_0010_0010_1001 = .spriteAddress 2 ∧
    decodeWord 0b1111_0010_0011_0011 = .storeBcd 2 ∧
    decodeWord 0b1111_0010_0101_0101 = .storeRegisters 2 ∧
    decodeWord 0b1111_1111_0110_0101 = .loadRegisters 15 := by decide

theorem test_decode_display_keys_timers :
    decodeWord 0b0000_0000_1110_0000 = .clearDisplay ∧
    decodeWord 0b1101_0001_0010_1111 = .drawSprite 1 2 15 ∧
    decodeWord 0b1110_0101_1001_1110 = .skipIfKeyDown 5 ∧
    decodeWord 0b1110_0101_1010_0001 = .skipIfKeyUp 5 ∧
    decodeWord 0b1111_0011_0000_0111 = .getDelay 3 ∧
    decodeWord 0b1111_0011_0000_1010 = .waitForKey 3 ∧
    decodeWord 0b1111_0011_0001_0101 = .setDelay 3 ∧
    decodeWord 0b1111_0011_0001_1000 = .setSound 3 := by decide

/-- 95_test_vectors.md section 2: the unknown words. -/
theorem test_decode_unknown :
    decodeWord 0x0001 = .unknownOpcode 0x0001 ∧
    decodeWord 0x00E1 = .unknownOpcode 0x00E1 ∧
    decodeWord 0x00EF = .unknownOpcode 0x00EF ∧
    decodeWord 0x0123 = .unknownOpcode 0x0123 ∧
    decodeWord 0x5121 = .unknownOpcode 0x5121 ∧
    decodeWord 0x8008 = .unknownOpcode 0x8008 ∧
    decodeWord 0x800D = .unknownOpcode 0x800D ∧
    decodeWord 0x800F = .unknownOpcode 0x800F ∧
    decodeWord 0x9001 = .unknownOpcode 0x9001 ∧
    decodeWord 0xE09F = .unknownOpcode 0xE09F ∧
    decodeWord 0xE000 = .unknownOpcode 0xE000 ∧
    decodeWord 0xF000 = .unknownOpcode 0xF000 ∧
    decodeWord 0xF0FF = .unknownOpcode 0xF0FF := by decide

/-- R78: the byte at the lower address is the high byte; bytes after the word are left over. -/
theorem test_decodeBytes_big_endian :
    decodeBytes [0x6A, 0x02, 0xFF] = .ok (.loadImm 10 2, [0xFF]) ∧
    decodeBytes [0x6A] = .error .truncated := by decide

theorem test_decodeTableWord : decodeTableWord 16 0xF365 = some (.loadRegisters 3) ∧
    decodeTableWord 16 0x5121 = some (.unknownOpcode 0x5121) := by decide

/-! ### Control flow (95_test_vectors.md sections 1, 3) -/

theorem test_explicitHalt :
    (after { z with delayTimer := 3 } 0x0000).map (fun t => (t.halted, t.stop, t.pc, t.delayTimer)) =
      some (true, .halt, 0x200, 2) := by decide

theorem test_jump : (after z 0x1202).map (·.pc) = some 0x202 := by decide

theorem test_call : (after { z with pc := 0xFFE } 0x2400).map (fun t => (t.stack[0], t.sp, t.pc)) =
    some (0x1000, 1, 0x400) := by decide

theorem test_call_overflow :
    stopped (after { z with sp := 16 } 0x2300) = some (true, .error .stackOverflow 0x200, 0x200) := by decide

theorem test_return :
    (after { z with pc := 0x300, sp := 1, stack := z.stack.set 0 0x202 } 0x00EE).map
      (fun t => (t.sp, t.pc, t.stack[0])) = some (0, 0x202, 0x202) := by decide

theorem test_return_underflow :
    stopped (after z 0x00EE) = some (true, .error .stackUnderflow 0x200, 0x200) := by decide

theorem test_skipIfEqImm : (after { z with v := regs [(3, 0x2A)] } 0x332A).map (·.pc) = some 0x204 ∧
    (after { z with v := regs [(3, 0x2B)] } 0x332A).map (·.pc) = some 0x202 := by decide

theorem test_skipIfNeImm : (after { z with v := regs [(3, 0x2A)] } 0x432A).map (·.pc) = some 0x202 ∧
    (after z 0x432A).map (·.pc) = some 0x204 := by decide

theorem test_skipIfEqReg : (after { z with v := regs [(1, 7), (2, 8)] } 0x5120).map (·.pc) = some 0x202 ∧
    (after { z with v := regs [(1, 7)] } 0x5110).map (·.pc) = some 0x204 := by decide

theorem test_skipIfNeReg : (after { z with v := regs [(1, 7), (2, 8)] } 0x9120).map (·.pc) = some 0x204 ∧
    (after { z with v := regs [(1, 7)] } 0x9110).map (·.pc) = some 0x202 := by decide

theorem test_jumpIndexed : (after { z with v := regs [(0, 0xFF)] } 0xBFFF).map (·.pc) = some 0x10FE ∧
    (after z 0xB201).map (·.pc) = some 0x201 := by decide

/-! ### Registers and arithmetic (95_test_vectors.md section 4) -/

/-- `V1` and `VF` after one step from `V1 = a`, `V2 = b`, `VF = 0xAA`. -/
def alu (a b : Byte) (w : Nat) : Option (Byte × Byte) :=
  (after { z with v := regs [(1, a), (2, b), (15, 0xAA)] } w).map fun t => (t.v[1], t.v[15])

/-- `VF` after one step from `VF = a`, `V1 = b`. -/
def aluF (a b : Byte) (w : Nat) : Option Byte :=
  (after { z with v := regs [(15, a), (1, b)] } w).map (·.v[15])

theorem test_loadImm : (after z 0x6005).map (fun t => (t.v[0], t.pc)) = some (0x05, 0x202) ∧
    aluF 0 0 0x6FFF = some 0xFF := by decide

theorem test_addImm : alu 0xFE 0 0x7103 = some (0x01, 0xAA) ∧ aluF 0x01 0 0x7FFF = some 0x00 := by decide

theorem test_move : alu 0x00 0x5A 0x8120 = some (0x5A, 0xAA) := by decide

theorem test_or : alu 0xF0 0x0F 0x8121 = some (0xFF, 0xAA) := by decide

theorem test_and : alu 0xF3 0x3F 0x8122 = some (0x33, 0xAA) := by decide

theorem test_xor : alu 0xFF 0x0F 0x8123 = some (0xF0, 0xAA) := by decide

theorem test_addWithCarry : alu 0xFF 0x01 0x8124 = some (0x00, 1) ∧ alu 0x7F 0x80 0x8124 = some (0xFF, 0) := by
  decide

theorem test_addWithCarry_flag : aluF 0xFF 0x01 0x8F14 = some 1 ∧ aluF 0x03 0x05 0x8F14 = some 0 := by decide

theorem test_subWithBorrow : alu 0x01 0x02 0x8125 = some (0xFF, 0) ∧ alu 0x02 0x02 0x8125 = some (0x00, 1) := by
  decide

theorem test_subWithBorrow_flag : alu 0x10 0x30 0x8125 = some (0xE0, 0) ∧ aluF 0xFF 0x01 0x8F15 = some 1 := by
  decide

theorem test_shiftRight : alu 0x05 0x00 0x8126 = some (0x02, 1) ∧ alu 0x04 0xFF 0x8126 = some (0x02, 0) := by
  decide

theorem test_shiftRight_flag : aluF 0x03 0 0x8F16 = some 1 := by decide

theorem test_reverseSub : alu 0x02 0x01 0x8127 = some (0xFF, 0) ∧ alu 0x01 0x02 0x8127 = some (0x01, 1) := by
  decide

theorem test_reverseSub_flag : aluF 0xFF 0x01 0x8F17 = some 0 ∧ aluF 0x03 0x05 0x8F17 = some 1 := by decide

theorem test_shiftLeft : alu 0x81 0x00 0x812E = some (0x02, 1) ∧ alu 0x40 0xFF 0x812E = some (0x80, 0) := by
  decide

theorem test_shiftLeft_flag : aluF 0x03 0 0x8F1E = some 0 ∧ aluF 0x81 0 0x8F1E = some 1 := by decide

/-- R192: the mask 0 gives 0 whatever is drawn, and one byte is drawn. -/
theorem test_random : (after z 0xC300).map (fun t => t.rngState.drawn) = some 1 ∧
    (after z 0xC30F).map (·.v[3]) = some (Config.rngByte 0 0 &&& 0x0F) := ⟨by decide, rfl⟩

/-! ### Index and memory (95_test_vectors.md section 5) -/

theorem test_loadIndex : (after z 0xA2F0).map (·.i) = some 0x2F0 := by decide

theorem test_addToIndex : (after { z with i := 0xFFF0, v := regs [(2, 0x20)] } 0xF21E).map (·.i) = some 0x0010 ∧
    (after { z with i := 0x0FFF, v := regs [(2, 0x01)] } 0xF21E).map (·.i) = some 0x1000 := by decide

theorem test_spriteAddress : (after { z with v := regs [(1, 0x0A)] } 0xF129).map (·.i) = some 0x082 ∧
    (after { z with v := regs [(1, 0xFF)] } 0xF129).map (·.i) = some 0x54B := by decide

theorem test_storeBcd : (after { z with i := 0xFFD, v := regs [(0, 234)] } 0xF033).map
    (fun t => t.mem.readBytes 0xFFD 3) = some [2, 3, 4] := by decide

theorem test_storeBcd_out_of_range : stopped (after { z with i := 0xFFE, v := regs [(0, 234)] } 0xF033) =
    some (true, .error .dataAddressOutOfRange 0xFFE, 0x200) := by decide

theorem test_storeRegisters :
    (after { z with i := 0x300, v := regs [(0, 0x11), (1, 0x22), (2, 0x33), (3, 0x44)] } 0xF255).map
      (fun t => (t.mem.readBytes 0x300 4, t.i)) = some ([0x11, 0x22, 0x33, 0x00], 0x300) := by decide

theorem test_storeRegisters_out_of_range : stopped (after { z with i := 0xFF1 } 0xFF55) =
    some (true, .error .dataAddressOutOfRange 0xFF1, 0x200) := by decide

theorem test_loadRegisters :
    (after { z with i := 0x300, v := regs [(3, 9)], mem := [(0x300, 2), (0x301, 3), (0x302, 4), (0x303, 5)] }
      0xF265).map (fun t => t.v.toList.take 4) = some [2, 3, 4, 9] := by decide

theorem test_loadRegisters_vF :
    (after { z with i := 0x300, mem := [(0x30F, 0x77)] } 0xFF65).map (fun t => (t.v[15], t.i)) =
      some (0x77, 0x300) := by decide

/-! ### Display (95_test_vectors.md section 6) -/

/-- One cell set. -/
def oneCell (c r : Nat) : Display := Display.clear.flip c r

theorem test_clearDisplay : (after { z with display := oneCell 3 4 } 0x00E0).map
    (fun t => (t.display.cell (4 * 64 + 3), t.drawPending)) = some (false, true) := by decide

/-- The example of R272: a sprite at column 63, row 31 wraps both ways. -/
theorem test_drawSprite_wraps :
    (after { z with i := 0x210, v := regs [(0, 63), (1, 31)], mem := [(0x210, 0xC0), (0x211, 0x80)] } 0xD012).map
      (fun t => ([2047, 1984, 63, 0].map t.display.cell, t.v[15], t.drawPending)) =
      some ([true, true, true, false], 0, true) := by decide

/-- Old `VF` is the column, and a pixel that goes from 1 to 0 is a collision. -/
theorem test_drawSprite_collision :
    (after { z with i := 0x300, v := regs [(15, 2)], mem := [(0x300, 0x80)], display := oneCell 2 0 } 0xDF11).map
      (fun t => (t.display.cell 2, t.v[15])) = some (false, 1) := by decide

/-! ### Keys and timers (95_test_vectors.md section 7) -/

theorem test_skipIfKeyDown : (after { z with v := regs [(5, 0x0A)], keys := down [0xA] } 0xE59E).map (·.pc) =
    some 0x204 ∧ (after { z with v := regs [(5, 0x0A)] } 0xE59E).map (·.pc) = some 0x202 := by decide

theorem test_skipIfKeyDown_out_of_range : stopped (after { z with v := regs [(5, 0x10)] } 0xE59E) =
    some (true, .error .keyIndexOutOfRange 0x0010, 0x200) := by decide

theorem test_skipIfKeyUp : (after { z with v := regs [(5, 0x0A)], keys := down [0xA] } 0xE5A1).map (·.pc) =
    some 0x202 ∧ (after { z with v := regs [(5, 0x0A)] } 0xE5A1).map (·.pc) = some 0x204 := by decide

theorem test_skipIfKeyUp_out_of_range : stopped (after { z with v := regs [(5, 0xFF)] } 0xE5A1) =
    some (true, .error .keyIndexOutOfRange 0x00FF, 0x200) := by decide

theorem test_getDelay : (after { z with delayTimer := 5 } 0xF307).map (fun t => (t.v[3], t.delayTimer)) =
    some (5, 4) := by decide

theorem test_waitForKey : (after { z with delayTimer := 2, keys := down [7] } 0xF10A).map
    (fun t => (t.awaitingKey, t.keyTarget, t.pc, t.delayTimer, t.prevKeys[7])) =
      some (true, 1, 0x200, 1, true) := by decide

theorem test_setDelay : (after { z with v := regs [(0, 3)] } 0xF015).map (·.delayTimer) = some 2 ∧
    (after z 0xF015).map (·.delayTimer) = some 0 := by decide

theorem test_setSound : (after { z with v := regs [(0, 0xFF)] } 0xF018).map (fun t => (t.soundTimer, t.soundActive)) =
    some (0xFE, true) ∧ (after { z with v := regs [(0, 1)] } 0xF018).map (·.soundActive) = some false := by decide

/-! ### Steps, errors and the host (95_test_vectors.md sections 7, 8) -/

theorem test_unknownOpcode : stopped (after { z with delayTimer := 3 } 0x5121) =
    some (true, .error .unknownOpcode 0x5121, 0x200) ∧
    (after { z with delayTimer := 3 } 0x5121).map (·.delayTimer) = some 3 := by decide

theorem test_fetch_past_memory : step { z with pc := 0xFFF, delayTimer := 3 } =
    .next { z with pc := 0xFFF, delayTimer := 3, halted := true, stop := .error .addressOutOfRange 0xFFF } := rfl

theorem test_fetch_odd_pc : (after { z with pc := 0x201 } 0x602A).map (fun t => (t.v[0], t.pc)) =
    some (0x2A, 0x203) := by decide

/-- A machine at 0x204 that waits for a key into `V1`. -/
abbrev waiting : State := { z with pc := 0x204, awaitingKey := true, keyTarget := 1, delayTimer := 4 }

theorem test_keyWait_resolves :
    (match step { waiting with keys := down [7] } with
      | .next t => some (t.v[1], t.awaitingKey, t.pc, t.delayTimer)
      | _ => none) = some (7, false, 0x206, 4) := by decide

theorem test_keyWait_no_edge :
    (match step { waiting with keys := down [3], prevKeys := down [3] } with
      | .next t => some (t.v[1], t.awaitingKey, t.pc)
      | _ => none) = some (0, true, 0x204) := by decide

/-- R336: a ROM is refused after the first step; the codes of R329, and the result of R326. -/
theorem test_host :
    ((Block.construct 0).act (.loadRom [0x60, 0x05])).2.machine.mem = [(0x200, 0x60), (0x201, 0x05)] ∧
    ({ started := true, machine := z : Block }.act (.loadRom [1])).1 = .romRefused ∧
    [ErrorKind.addressOutOfRange, .unknownOpcode, .stackOverflow, .stackUnderflow, .dataAddressOutOfRange,
      .keyIndexOutOfRange].map (fun k => (stopCode (.error k 0)).toNat) = [1, 2, 3, 4, 5, 6] ∧
    stopCode .halt = 0 ∧ ((Block.construct 0).act .step).1 = .stepped .halt := by decide

/-! ### Witnesses: concrete states and operands that meet the hypotheses of the statements -/

theorem witness_DecodeInvertsEncode :
    (Instr.loadImm 15 0xFF).wellFormed = true ∧ (Instr.unknownOpcode 0xFFFF).wellFormed = true := by decide

/-- One word for each row whose encoding a statement gives, with every free bit 1. -/
theorem witness_Encoded :
    ([(0x6FFF, 0x6000), (0x7FFF, 0x7000), (0xAFFF, 0xA000), (0x1FFF, 0x1000), (0xBFFF, 0xB000),
      (0x3FFF, 0x3000), (0x4FFF, 0x4000), (0xCFFF, 0xC000)] : List (Word × Word)).all
        (fun p => p.1 &&& 0xF000 == p.2) = true ∧
    ([(0x8FF0, 0x8000), (0x8FF1, 0x8001), (0x8FF2, 0x8002), (0x8FF3, 0x8003), (0x8FF4, 0x8004),
      (0x8FF5, 0x8005), (0x8FF6, 0x8006), (0x8FF7, 0x8007), (0x8FFE, 0x800E), (0x5FF0, 0x5000),
      (0x9FF0, 0x9000)] : List (Word × Word)).all (fun p => p.1 &&& 0xF00F == p.2) = true ∧
    ([(0xFF1E, 0xF01E), (0xFF29, 0xF029), (0xFF07, 0xF007), (0xFF15, 0xF015), (0xFF18, 0xF018)] :
      List (Word × Word)).all (fun p => p.1 &&& 0xF0FF == p.2) = true ∧
    (0x0000 : Word) &&& 0xFFFF = 0x0000 ∧ (0x00E0 : Word) &&& 0xFFFF = 0x00E0 :=
  ⟨by decide, by decide, by decide, by decide, by decide⟩

/-- A word that selects a row, and one that selects none. -/
theorem witness_TableRows : ({ mask := 0xF00F, value := 0x8004, instr := fun w => .addWithCarry (fx w) (fy w) } :
    Row).selects 0x8124 = true ∧ rows.all (fun r => !r.selects 0x5121) = true := by decide

/-- Registers for both values of the carry, at its boundary. -/
theorem witness_AddWithCarry : (255 : Byte).toNat + (1 : Byte).toNat ≥ 256 ∧
    ¬(255 : Byte).toNat + (0 : Byte).toNat ≥ 256 ∧ (1 : RegIdx) ≠ vF := by decide

/-- Registers for both values of the no-borrow flag, at its boundary. -/
theorem witness_Subtractions : (2 : Byte).toNat ≥ (2 : Byte).toNat ∧ ¬(1 : Byte).toNat ≥ (2 : Byte).toNat := by
  decide

/-- Registers for both values of the bit shifted out. -/
theorem witness_Shifts : (1 : Byte).toNat % 2 = 1 ∧ ¬(254 : Byte).toNat % 2 = 1 ∧
    (128 : Byte).toNat / 128 = 1 ∧ ¬(127 : Byte).toNat / 128 = 1 := by decide

theorem witness_StoreBcd : z.mem.wf ∧ ({ z with i := 0xFFD } : State).dataAddr 2 ≤ 0xFFF ∧
    0xFFF < ({ z with i := 0xFFE } : State).dataAddr 2 := ⟨Memory.wf_nil, by decide⟩

theorem witness_StoreRegisters : z.mem.wf ∧ ({ z with i := 0xFF0 } : State).dataAddr (15 : RegIdx).val ≤ 0xFFF ∧
    0xFFF < ({ z with i := 0xFF1 } : State).dataAddr (15 : RegIdx).val := ⟨Memory.wf_nil, by decide⟩

theorem witness_LoadRegisters : ({ z with i := 0xFFF } : State).dataAddr (0 : RegIdx).val ≤ 0xFFF ∧
    0xFFF < ({ z with i := 0x1000 } : State).dataAddr (0 : RegIdx).val := by decide

theorem witness_LoadAfterStore : z.mem.wf ∧ ({ z with i := 0xFFF } : State).dataAddr (0 : RegIdx).val ≤ 0xFFF ∧
    (ran (.storeRegisters 0) { z with i := 0xFFF, v := regs [(0, 7)] }).isSome = true :=
  ⟨Memory.wf_nil, by decide⟩

theorem witness_ExplicitHalt : Running z ∧ AtInstr z .explicitHalt := ⟨⟨rfl, rfl⟩, by decide, by decide⟩

theorem witness_Call : ({ z with sp := 15 } : State).sp.val < 16 ∧ ({ z with sp := 16 } : State).sp.val = 16 := by
  decide

theorem witness_Return : ({ z with sp := 1 } : State).sp.val = (0 : Fin 16).val + 1 ∧
    ({ z with sp := 16 } : State).sp.val = (15 : Fin 16).val + 1 ∧ z.sp.val = 0 := by decide

theorem witness_ReturnAfterCall : ({ z with sp := 15 } : State).sp.val < 16 ∧
    (ran (.call 0x300) { z with sp := 15 }).isSome = true := by decide

theorem witness_NextPc : ({ z with pc := 0xFFE } : State).halted = false ∧
    ({ z with pc := 0xFFE } : State).pc.toNat + 1 < 4096 ∧
    (ran .ret z).map (fun t => (t.halted, t.stop)) = some (true, .error .stackUnderflow 0x200) ∧
    (ran (.jump 0) z).map (·.raised) = some false ∧
    (ran (.call 0) { z with sp := 15 }).map (·.raised) = some false ∧ waiting.halted = false ∧ waiting.awaitingKey = true := by
  decide

/-- A draw at the last byte of memory, of no row, and past the end. -/
theorem witness_DrawSprite_range : ({ z with i := 0xFFF } : State).dataAddr ((1 : Fin 16).val - 1) ≤ 0xFFF ∧
    (0 : Fin 16).val = 0 ∧ (2 : Fin 16).val ≠ 0 ∧
    0xFFF < ({ z with i := 0xFFF } : State).dataAddr ((2 : Fin 16).val - 1) := by decide

/-- A machine about to draw one pixel at column 2, row 0. -/
abbrev drawer (d : Display) : State := { z with i := 0x300, v := regs [(1, 2)], mem := [(0x300, 0x80)], display := d }

/-- A covered pixel that is 1, and one that is not covered. -/
theorem witness_DrawSprite_covered :
    Covered (drawer (oneCell 2 0)) 1 0 1 2 0 ∧ (drawer (oneCell 2 0)).display.cell (0 * 64 + 2) = true ∧
    ¬Covered (drawer (oneCell 2 0)) 1 0 1 3 1 :=
  ⟨⟨0, by decide, 0, by decide, by decide⟩, by decide, by unfold Covered; decide⟩

/-- A draw whose every covered pixel is 0: on a clear display. -/
theorem witness_DrawSprite_no_collision :
    ∀ c < 64, ∀ r < 32, Covered (drawer Display.clear) 1 0 1 c r →
      (drawer Display.clear).display.cell (r * 64 + c) = false :=
  fun _ _ _ _ _ => by simp [Display.cell, Display.pixel, Display.clear]

/-- A first draw at registers other than `VF`, and one at `VF` that leaves it 0. -/
theorem witness_DrawingTwice : (drawer Display.clear).dataAddr ((1 : Fin 16).val - 1) ≤ 0xFFF ∧
    (ran (.drawSprite 1 0 1) (drawer Display.clear)).map (fun t => (t.v[1], t.v[0])) = some (2, 0) ∧
    (drawer Display.clear).v[1] = 2 ∧ (drawer Display.clear).v[0] = 0 ∧
    (ran (.drawSprite 15 0 1) (drawer Display.clear)).map (fun t => (t.v[15], t.v[0])) = some (0, 0) ∧
    (drawer Display.clear).v[15] = 0 := by decide

theorem witness_KeySkips : ({ z with v := regs [(5, 0x0F)] } : State).v[(5 : RegIdx)].toNat = (15 : KeyIdx).val ∧
    0x0F < ({ z with v := regs [(5, 0x10)] } : State).v[(5 : RegIdx)].toNat := by decide

theorem witness_StepOfTimerInstruction :
    (Running (at' z 0xF307) ∧ AtInstr (at' z 0xF307) (.getDelay 3)) ∧
    (Running (at' z 0xF315) ∧ AtInstr (at' z 0xF315) (.setDelay 3)) ∧
    (Running (at' z 0xF318) ∧ AtInstr (at' z 0xF318) (.setSound 3)) :=
  ⟨⟨⟨rfl, rfl⟩, by decide, by decide⟩, ⟨⟨rfl, rfl⟩, by decide, by decide⟩, ⟨rfl, rfl⟩, by decide, by decide⟩

theorem witness_WaitForKey : Running (at' z 0xF30A) ∧ AtInstr (at' z 0xF30A) (.waitForKey 3) :=
  ⟨⟨rfl, rfl⟩, by decide, by decide⟩

/-- A running machine at an instruction that raises no error, and at one that does. -/
theorem witness_StepRunsDecoded :
    (Running (at' z 0x6005) ∧ AtInstr (at' z 0x6005) (.loadImm 0 5) ∧
      (ran (.loadImm 0 5) (at' z 0x6005)).map (·.raised) = some false) ∧
    (Running (at' z 0x00EE) ∧ AtInstr (at' z 0x00EE) .ret ∧
      (ran .ret (at' z 0x00EE)).map (·.raised) = some true) :=
  ⟨⟨⟨rfl, rfl⟩, ⟨by decide, by decide⟩, by decide⟩, ⟨rfl, rfl⟩, ⟨by decide, by decide⟩, by decide⟩

theorem witness_StepKeepsInvariant : Inv z ∧ ∃ t, step z = .next t :=
  ⟨⟨Memory.wf_nil, by decide, by decide, by decide, by decide, by decide⟩, _, rfl⟩

theorem witness_Halted : ({ z with halted := true, stop := .halt } : State).halted = true := rfl

/-- Keys held since the step before, and none at all. -/
theorem witness_KeyWait_no_edge : waiting.halted = false ∧ waiting.awaitingKey = true ∧
    (∀ k : KeyIdx, (down [3])[k] = true → (down [3])[k] = true) ∧
    ∀ k : KeyIdx, (down [])[k] = true → (down [3])[k] = true := by decide

/-- One edge, and two at once. -/
theorem witness_KeyWait_edge : waiting.halted = false ∧ waiting.awaitingKey = true ∧
    (∃ k : KeyIdx, (down [7])[k] = true ∧ (down [])[k] = false) ∧
    ∃ k : KeyIdx, (down [2, 5])[k] = true ∧ (down [])[k] = false := by decide

theorem witness_FetchPastMemory : Running { z with pc := 0xFFF } ∧
    ({ z with pc := 0xFFF } : State).pc.toNat + 1 ≥ 4096 ∧
    ({ z with pc := 0xFFFF } : State).pc.toNat + 1 ≥ 4096 := ⟨⟨rfl, rfl⟩, by decide, by decide⟩

/-- A step and its handler that raise an error, one for each of the six kinds. -/
theorem witness_Errors :
    (match step { z with pc := 0xFFF } with | .next t => some (t.halted, t.stop) | _ => none) =
      some (true, .error .addressOutOfRange 0xFFF) ∧
    (after z 0x5121).map (·.stop) = some (.error .unknownOpcode 0x5121) ∧
    (after { z with sp := 16 } 0x2300).map (·.stop) = some (.error .stackOverflow 0x200) ∧
    (after z 0x00EE).map (·.stop) = some (.error .stackUnderflow 0x200) ∧
    (after { z with i := 0xFFE } 0xF033).map (·.stop) = some (.error .dataAddressOutOfRange 0xFFE) ∧
    (after { z with v := regs [(5, 0x10)] } 0xE59E).map (·.stop) = some (.error .keyIndexOutOfRange 0x10) ∧
    z.halted = false ∧ (ran .ret z).map (fun t => (t.halted, t.stop)) =
      some (true, .error .stackUnderflow 0x200) := by decide

/-- A halted machine, a waiting one, a fetch past memory and a handler that raises: no tick. And a handler
that completes. -/
theorem witness_TimersTick : ({ z with halted := true } : State).halted = true ∧ waiting.awaitingKey = true ∧
    ({ z with pc := 0xFFF } : State).pc.toNat + 1 ≥ 4096 ∧
    (after z 0x00EE).map (·.raised) = some true ∧
    (Running (at' z 0x6005) ∧ AtInstr (at' z 0x6005) (.loadImm 0 5) ∧
      (ran (.loadImm 0 5) (at' z 0x6005)).map (·.raised) = some false) :=
  ⟨rfl, rfl, by decide, by decide, ⟨rfl, rfl⟩, ⟨by decide, by decide⟩, by decide⟩

theorem witness_RunningStep : z.halted = false ∧ ∃ t, step z = .next t := ⟨rfl, _, rfl⟩

/-- Registers next to the ones an instruction may write. -/
theorem witness_RegistersChange : ¬mayWrite (.loadRegisters 3) 4 ∧ ¬mayWrite (.addWithCarry 1 2) 2 ∧
    (ran (.loadRegisters 3) z).isSome = true ∧ (ran (.addWithCarry 1 2) z).isSome = true := by
  simp only [mayWrite]
  decide

/-- Bytes next to the ones an instruction stores to. -/
theorem witness_MemoryChanges : z.mem.wf ∧ (ran (.storeBcd 0) { z with i := 0x300 }).isSome = true ∧
    ¬storesAt { z with i := 0x300 } (.storeBcd 0) 0x303 ∧
    ¬storesAt { z with i := 0x300 } (.storeRegisters 1) 0x302 :=
  ⟨Memory.wf_nil, by decide, by simp only [storesAt]; decide, by simp only [storesAt]; decide⟩

theorem witness_IndexChanges : (ran (.loadIndex 5) z).map (·.i) = some 5 ∧ z.i ≠ 5 := by decide

theorem witness_StackChanges : (ran (.call 0x300) z).map (fun t => (t.stack[0], t.sp)) = some (0x202, 1) ∧
    z.stack[0] ≠ 0x202 ∧ z.sp ≠ 1 := by decide

theorem witness_DisplayChanges :
    (ran .clearDisplay { z with display := oneCell 0 0 }).map (fun t => (t.display.cell 0, t.drawPending)) =
      some (false, true) ∧ (oneCell 0 0).cell 0 = true ∧ z.drawPending = false ∧
    ({ z with drawPending := true } : State).drawPending = true := by decide

theorem witness_ControlState :
    (ran (.setDelay 1) { z with v := regs [(1, 9)] }).map (·.delayTimer) = some 9 ∧
    (ran (.setSound 1) { z with v := regs [(1, 9)] }).map (·.soundTimer) = some 9 ∧
    (ran (.random 1 0) z).map (·.rngState.drawn) = some 1 ∧
    (ran (.waitForKey 1) z).map (fun t => (t.awaitingKey, t.keyTarget)) = some (true, 1) ∧
    (ran .explicitHalt z).map (fun t => (t.halted, t.stop)) = some (true, .halt) ∧
    (ran .ret z).map (fun t => (t.halted, t.stop)) = some (true, .error .stackUnderflow 0x200) ∧
    ({ z with halted := true } : State).halted = true := by decide

/-- Stores at the end of memory; store-registers over the whole next word; and, in a step, store-bcd whose
last digit falls on its first byte, and store-registers on its second byte alone. -/
theorem witness_StoreIsSeen : z.mem.wf ∧
    ({ z with i := 0xFFD } : State).dataAddr (accessed (.storeBcd 0) - 1) ≤ 0xFFF ∧
    ({ z with i := 0xFF0 } : State).dataAddr (accessed (.storeRegisters 15) - 1) ≤ 0xFFF ∧
    ({ z with i := 0x202 } : State).dataAddr (accessed (.storeRegisters 1) - 1) ≤ 0xFFF ∧
    (Running (at' { z with i := 0x200 } 0xF033) ∧ AtInstr (at' { z with i := 0x200 } 0xF033) (.storeBcd 0)) ∧
    (Running (at' { z with i := 0x203 } 0xF055) ∧
      AtInstr (at' { z with i := 0x203 } 0xF055) (.storeRegisters 0)) ∧ z.pc.toNat + 3 < 4096 :=
  ⟨Memory.wf_nil, by decide, by decide, by decide, ⟨⟨rfl, rfl⟩, by decide, by decide⟩,
    ⟨⟨rfl, rfl⟩, by decide, by decide⟩, by decide⟩

/-- What those two steps fetch next: digit 4 of 234 in the high byte, `V0` in the low one. -/
theorem test_store_seen_by_fetch :
    (after { z with i := 0x200, v := regs [(0, 234)], mem := [(0x203, 0x11)] } 0xF033).bind (·.fetch) =
      some 0x0411 ∧
    (after { z with i := 0x203, v := regs [(0, 0x5A)], mem := [(0x202, 0x60)] } 0xF055).bind (·.fetch) =
      some 0x605A := by decide

/-- The addresses of construction: the first and last font byte and the bytes around them. -/
theorem witness_Construction : (0x4F < 4096 ∧ 0x4F < 0x50) ∧ (0xA0 < 4096 ∧ 0xA0 ≤ 0xA0) ∧ 2047 < 2048 := by
  decide

/-- The longest ROM, by its bytes after the first two. -/
theorem witness_FirstStep : (List.replicate 3582 (1 : Byte)).length + 2 ≤ 3584 := by
  rw [List.length_replicate]

theorem witness_RomIsLoaded : (Block.construct 0).machine.mem.wf ∧ (Block.construct 0).started = false ∧
    (List.replicate 3584 (1 : Byte)).length ≤ 3584 ∧ 3584 < (List.replicate 3585 (1 : Byte)).length ∧
    ({ started := true, machine := z } : Block).started = true :=
  ⟨Memory.wf_nil, rfl, by rw [List.length_replicate], by rw [List.length_replicate]; decide, rfl⟩

/-- A machine of each kind of `stop`, and a step that ends in each. -/
theorem witness_HostActions : z.stop = .running ∧
    ({ z with halted := true, stop := .halt } : State).stop = .halt ∧
    ({ z with halted := true, stop := .error .unknownOpcode 0x5121 } : State).stop = .error .unknownOpcode 0x5121 ∧
    (∃ t, step (Block.construct 0).machine = .next t) ∧
    (after z 0x6005).map (·.stop) = some .running ∧ (after z 0x0000).map (·.stop) = some .halt ∧
    (after z 0x5121).map (·.stop) = some (.error .unknownOpcode 0x5121) :=
  ⟨rfl, rfl, rfl, ⟨_, rfl⟩, by decide, by decide, by decide⟩

end Sys2Proof.Tests
end

section
/-! SUPPORT. What a handler can do, said once (`exec_effect`), and the frames of 10_state.md read off it. -/

namespace Sys2Proof.Machine

open Sys2Proof.Safety Sys2Proof.Statements

/-- The effect of an instruction's handler on a machine `s`, by the parts of the state it writes. An
effect that moves `pc` by other than 2 says how far it can go from a fetched instruction (R34). -/
inductive Effect (s : State) : Instr → State → Prop where
  /-- An error: `halted` and `stop` (R330). -/
  | raises (i : Instr) (kind : ErrorKind) (ctx : Word) : Effect s i (s.raise kind ctx)
  /-- The normal halt (R140). -/
  | halts : Effect s .explicitHalt s.haltNormally
  /-- Registers named for the instruction (R31, R32). -/
  | registers (i : Instr) (v : Vector Byte 16) (hv : ∀ k, ¬mayWrite i k → v[k] = s.v[k]) :
      Effect s i { s with v := v }.advance
  /-- A register and the generator (R192). -/
  | draws (x : RegIdx) (nn : Byte) (v : Vector Byte 16)
      (hv : ∀ k, ¬mayWrite (.random x nn) k → v[k] = s.v[k]) :
      Effect s (.random x nn) { s with v := v, rngState := (pRng s.rngState).2 }.advance
  /-- `pc` alone: jumps and skips (R142, R144, R150). -/
  | jumps (i : Instr) (p : Word) (hp : s.pc.toNat ≤ 0xFFE → p.toNat ≤ 0x10FE) : Effect s i (s.jumpTo p)
  /-- The slot at `sp`, and `sp` (R145). -/
  | calls (nnn : Addr12) (k : Fin 16) (hk : s.sp.val = k.val) :
      Effect s (.call nnn)
        ({ s with stack := s.stack.set k (s.pc + 2), sp := k.succ }.jumpTo (zext16 nnn))
  /-- `sp` alone, the slot's value going to `pc` (R143). -/
  | returns (k : Fin 16) (hk : s.sp.val = k.val + 1) :
      Effect s .ret ({ s with sp := k.castSucc }.jumpTo s.stack[k])
  /-- The cleared display (R271). -/
  | clears : Effect s .clearDisplay { s with display := Display.clear, drawPending := true }.advance
  /-- The display and the collision flag (R272). -/
  | blits (x y : RegIdx) (n : Fin 16) (d : Display) (v : Vector Byte 16)
      (hv : ∀ k, ¬mayWrite (.drawSprite x y n) k → v[k] = s.v[k]) :
      Effect s (.drawSprite x y n) { s with v := v, display := d, drawPending := true }.advance
  /-- `I` (R231 to R233). -/
  | indexes (i : Instr) (w : Word)
      (hi : (∃ nnn, i = .loadIndex nnn) ∨ (∃ x, i = .addToIndex x) ∨ ∃ x, i = .spriteAddress x) :
      Effect s i { s with i := w }.advance
  /-- Memory (R234, R235). -/
  | stores (i : Instr) (m : Memory) (hm : s.mem.wf → m.wf)
      (hread : s.mem.wf → ∀ a, ¬storesAt s i a → m.read a = s.mem.read a) :
      Effect s i { s with mem := m }.advance
  /-- The key wait (R294). -/
  | waits (x : RegIdx) : Effect s (.waitForKey x) { s with awaitingKey := true, keyTarget := x }
  /-- The delay timer (R295). -/
  | setsDelay (x : RegIdx) : Effect s (.setDelay x) { s with delayTimer := s.reg x }.advance
  /-- The sound timer (R296). -/
  | setsSound (x : RegIdx) : Effect s (.setSound x) { s with soundTimer := s.reg x }.advance

/-! ### The effect of each shared operation -/

theorem reg_setReg_of_not_mayWrite {s : State} {i : Instr} {x k : RegIdx} (hx : mayWrite i x)
    (hk : ¬mayWrite i k) (b : Byte) : (s.setReg x b).v[k] = s.v[k] :=
  s.reg_setReg_other (fun e : x = k => hk (e ▸ hx)) b

theorem Effect.of_setReg {s : State} {i : Instr} {x : RegIdx} (hx : mayWrite i x) (b : Byte) :
    Effect s i (s.setReg x b).advance :=
  .registers i _ fun _ hk => reg_setReg_of_not_mayWrite hx hk b

theorem Effect.of_setRegFlag {s : State} {i : Instr} {x : RegIdx} (hx : mayWrite i x)
    (hf : mayWrite i vF) (b : Byte) (f : Bool) : Effect s i (s.setRegFlag x b f).advance :=
  .registers i _ fun _ hk =>
    (reg_setReg_of_not_mayWrite hf hk (flagByte f)).trans (reg_setReg_of_not_mayWrite hx hk b)

theorem Effect.of_skipIf (s : State) (i : Instr) (c : Bool) : Effect s i (s.skipIf c) := by
  refine .jumps i _ fun hp => ?_
  cases c
  · show (s.pc + 2).toNat ≤ 0x10FE
    bv_omega
  · show (s.pc + 4).toNat ≤ 0x10FE
    bv_omega

theorem Effect.of_skipOnKey (s : State) (i : Instr) (x : RegIdx) (cond : Bool → Bool) :
    Effect s i (s.skipOnKey x cond) := by
  rcases s.skipOnKey_cases x cond with ⟨k, -, hk⟩ | ⟨-, hr⟩
  · rw [hk]; exact .of_skipIf s i _
  · rw [hr]; exact .raises i _ _

theorem Effect.of_withData {s t : State} {i : Instr} {n : Nat}
    (h : n = 0 ∨ s.dataAddr (n - 1) ≤ 0xFFF → Effect s i t) : Effect s i (s.withData n t) := by
  rcases s.withData_cases n t with ⟨hf, ht⟩ | ⟨-, ht⟩
  · rw [ht]; exact h hf
  · rw [ht]; exact .raises i _ _

/-- A store of `n + 1` bytes inside memory: it keeps the canonical form and every byte but those at the
addresses the instruction stores to. -/
theorem Effect.of_writeData {s : State} {i : Instr} {n : Nat} {bs : List Byte}
    (hlen : bs.length = n + 1) (hi : ∀ k ≤ n, storesAt s i (s.dataAddr k)) :
    Effect s i (s.withData (n + 1) (s.writeData bs).advance) := by
  refine .of_withData fun hf => ?_
  have hin : s.dataAddr 0 + bs.length ≤ Config.memSize := by
    simp only [State.dataAddr, Config.memSize] at *
    omega
  refine .stores i _ (fun hm => Memory.wf_writeBytes hm _ bs hin) fun hm a ha => ?_
  refine (Memory.read_writeBytes hm _ bs hin a).trans (dif_neg fun ⟨hle, hlt⟩ => ha ?_)
  have haddr : s.dataAddr (a - s.dataAddr 0) = a := by
    simp only [State.dataAddr] at *
    omega
  exact haddr ▸ hi _ (by omega)

theorem Effect.of_loadRegisters (s : State) (x : RegIdx) :
    Effect s (.loadRegisters x)
      { s with v := setRegsFrom s.v 0 (s.readData (x.val + 1)) }.advance := by
  refine .registers _ _ fun k hk => ?_
  have hlen : (s.readData (x.val + 1)).length = x.val + 1 := Memory.length_readBytes ..
  have hk' : ¬k.val ≤ x.val := hk
  exact (getElem_setRegsFrom _ _ _ _ k.isLt).trans (dif_neg (by omega))

theorem Effect.of_call {s t : State} {nnn : Addr12} (h : execCall nnn s = .next t) :
    Effect s (.call nnn) t := by
  unfold execCall at h
  rcases Nat.lt_or_ge s.sp.val 16 with hlt | hge
  · rw [State.push_of_lt hlt] at h
    cases h
    exact .calls nnn ⟨s.sp.val, hlt⟩ rfl
  · rw [State.push_full (by omega)] at h
    cases h
    exact .raises _ _ _

theorem Effect.of_ret {s t : State} (h : execRet s = .next t) : Effect s .ret t := by
  unfold execRet at h
  rcases Nat.eq_zero_or_pos s.sp.val with h0 | h0
  · rw [State.pop_empty h0] at h
    cases h
    exact .raises _ _ _
  · have hk : s.sp.val = (⟨s.sp.val - 1, by omega⟩ : Fin 16).val + 1 := by simp only; omega
    rw [State.pop_of_eq hk] at h
    cases h
    exact .returns _ hk

theorem zext16_add_le (nnn : Addr12) (b : Byte) : (zext16 nnn + zext16 b).toNat ≤ 0x10FE := by
  have := nnn.isLt
  have := b.isLt
  rw [BitVec.toNat_add, zext16_toNat (by decide), zext16_toNat (by decide)]
  omega

theorem zext16_addr_le (nnn : Addr12) : (zext16 nnn).toNat ≤ 0xFFF := by
  have := nnn.isLt
  rw [zext16_toNat (by decide)]
  omega

/-- Everything a handler can do. -/
theorem exec_effect {i : Instr} {s t : State} (h : exec i s = .next t) : Effect s i t := by
  cases i with
  | call nnn => exact .of_call h
  | ret => exact .of_ret h
  | explicitHalt => cases h; exact .halts
  | clearDisplay => cases h; exact .clears
  | jump nnn => cases h; exact .jumps _ _ fun _ => (zext16_addr_le nnn).trans (by decide)
  | jumpIndexed nnn => cases h; exact .jumps _ _ fun _ => zext16_add_le nnn _
  | skipIfEqImm _ _ | skipIfNeImm _ _ | skipIfEqReg _ _ | skipIfNeReg _ _ =>
    cases h; exact .of_skipIf _ _ _
  | skipIfKeyDown _ | skipIfKeyUp _ => cases h; exact .of_skipOnKey _ _ _ _
  | loadImm _ _ | addImm _ _ | move _ _ | or _ _ | and _ _ | xor _ _ | getDelay _ =>
    cases h; exact .of_setReg (by simp [mayWrite]) _
  | addWithCarry _ _ | subWithBorrow _ _ | shiftRight _ _ | reverseSub _ _ | shiftLeft _ _ =>
    cases h; exact .of_setRegFlag (by simp [mayWrite]) (by simp [mayWrite]) _ _
  | random x nn =>
    cases h
    exact .draws x nn _ fun k hk =>
      reg_setReg_of_not_mayWrite (s := s.randomByte.2) (by simp [mayWrite]) hk _
  | drawSprite x y n =>
    cases h
    exact .of_withData fun _ => .blits x y n _ _ fun k hk =>
      reg_setReg_of_not_mayWrite (by simp [mayWrite]) hk _
  | loadIndex _ | addToIndex _ | spriteAddress _ => cases h; exact .indexes _ _ (by simp)
  | storeBcd x =>
    cases h
    exact .of_writeData (n := 2) (bcdDigits_length _) fun k hk => ⟨k, by omega, rfl⟩
  | storeRegisters x =>
    cases h
    exact .of_writeData (by rw [List.length_take, Vector.length_toList]; omega)
      fun k hk => ⟨k, hk, rfl⟩
  | loadRegisters x => cases h; exact .of_withData fun _ => .of_loadRegisters s x
  | waitForKey x => cases h; exact .waits x
  | setDelay x => cases h; exact .setsDelay x
  | setSound x => cases h; exact .setsSound x
  | unknownOpcode w => cases h; exact .raises _ _ _

end Sys2Proof.Machine

/-! ### The invariant -/

namespace Sys2Proof.Safety

open Sys2Proof.Machine

/-- A machine that does not wait keeps the invariant wherever `pc` goes within its bound (R34). -/
theorem Inv.jumpTo {s : State} (hs : Inv s) (ha : s.awaitingKey = false) {p : Word}
    (hp : p.toNat ≤ 0x10FE) : Inv (s.jumpTo p) :=
  { hs with pcBound := hp, waitPc := fun h => absurd (ha.symm.trans h) Bool.false_ne_true }

/-- From a fetched instruction, the next one is within the bound of `pc`. -/
theorem Inv.advance {s : State} (hs : Inv s) (ha : s.awaitingKey = false) (hp : s.pc.toNat ≤ 0xFFE) :
    Inv s.advance :=
  hs.jumpTo ha (by bv_omega)

theorem Inv.raise {s : State} (hs : Inv s) (ha : s.awaitingKey = false) (kind : ErrorKind) (ctx : Word) :
    Inv (s.raise kind ctx) :=
  { hs with stopRunning := by simp, haltedNotWaiting := fun _ => ha }

theorem Inv.haltNormally {s : State} (hs : Inv s) (ha : s.awaitingKey = false) : Inv s.haltNormally :=
  { hs with stopRunning := by simp, haltedNotWaiting := fun _ => ha }

/-- The invariant says nothing of the key sample. -/
theorem Inv.recordSample {t : State} (ht : Inv t) (s : State) : Inv (s.recordSample t) := { ht with }

/-- The invariant says nothing of the timers. -/
theorem Inv.tick {s : State} (hs : Inv s) : Inv s.tick := { hs with }

theorem Inv.finish {t : State} (ht : Inv t) (s : State) : Inv (s.finish t) := by
  unfold State.finish
  split
  · exact ht.recordSample s
  · exact ht.tick.recordSample s

/-- A pushed return address, that of the instruction after a fetched one, is within the bound of the
stack slots. -/
theorem Inv.setSlot {s : State} (hs : Inv s) (hp : s.pc.toNat ≤ 0xFFE) (k : Fin 16) (sp : Fin 17) :
    Inv { s with stack := s.stack.set k (s.pc + 2), sp := sp } := by
  refine { hs with stackBound := fun j => ?_ }
  have hpush : (s.pc + 2).toNat ≤ 0x1000 := by bv_omega
  show ((s.stack.set k (s.pc + 2))[j.val]).toNat ≤ 0x1000
  rw [Vector.getElem_set]
  split
  · exact hpush
  · exact hs.stackBound j

/-- A handler keeps the invariant of a running machine that stands at a fetched instruction. -/
theorem Inv.of_effect {s t : State} {i : Instr} (hs : Inv s) (hr : Running s) (hp : s.pc.toNat ≤ 0xFFE)
    (e : Effect s i t) : Inv t := by
  obtain ⟨hh, ha⟩ := hr
  cases e with
  | raises _ kind ctx => exact hs.raise ha kind ctx
  | halts => exact hs.haltNormally ha
  | registers | draws | clears | blits | indexes | setsDelay | setsSound =>
    exact Inv.advance { hs with } ha hp
  | stores _ m hm => exact Inv.advance { hs with memory := hm hs.memory } ha hp
  | jumps _ _ hj => exact hs.jumpTo ha (hj hp)
  | calls nnn k =>
    exact (hs.setSlot hp k k.succ).jumpTo ha ((zext16_addr_le nnn).trans (by decide))
  | returns k =>
    have popped : Inv { s with sp := k.castSucc } := { hs with }
    exact popped.jumpTo ha ((hs.stackBound k).trans (by decide))
  | waits =>
    exact { hs with
      waitPc := fun _ => hp
      haltedNotWaiting := fun h => absurd (hh.symm.trans h) Bool.false_ne_true }

/-- A key wait keeps the invariant: it resolves at the instruction it stands at, or stays. -/
theorem Inv.keyWait {s : State} (hs : Inv s) (ha : s.awaitingKey = true) : Inv s.keyWait := by
  rcases s.keyWait_cases with ⟨-, hk⟩ | ⟨k, -, -, hk⟩
  · rw [hk]
    exact hs.recordSample s
  · rw [hk]
    have resolved : Inv { s.setReg s.keyTarget (keyCode k) with awaitingKey := false } :=
      { hs with waitPc := nofun, haltedNotWaiting := fun _ => rfl }
    exact (resolved.advance rfl (hs.waitPc ha)).recordSample s

end Sys2Proof.Safety

/-! ### The statements -/

namespace Sys2Proof.Proofs

open Sys2Proof.Machine Sys2Proof.Safety

/-- Settles O34: every branch of `step_cases` keeps the invariant, the handlers' by their effects. -/
theorem stepKeepsMachineInvariant : Obligations.StepKeepsMachineInvariant := by
  intro s t hs h
  rcases step_cases h with ⟨-, rfl⟩ | ⟨-, ha, rfl⟩ | ⟨hr, -, rfl⟩ | ⟨i, u, hr, hi, hu, rfl⟩
  · exact hs
  · exact hs.keyWait ha
  · exact (hs.raise hr.2 _ _).recordSample s
  · have hp : s.pc.toNat ≤ 0xFFE := Nat.le_of_lt_succ (Nat.lt_of_succ_lt_succ hi.1)
    exact (hs.of_effect hr hp (exec_effect hu)).finish s

/-- Settles O45: only four effects write registers, each with the frame of `mayWrite`. -/
theorem registersChangeOnlyAsNamed : Obligations.RegistersChangeOnlyAsNamed := by
  intro i s t h k hk
  cases exec_effect h with
  | registers _ _ hv | draws _ _ _ hv | blits _ _ _ _ _ hv => exact hv k hk
  | _ => rfl

/-- Settles O48: of the effects, only a call's writes a slot, and only a call's and a return's move
`sp`. -/
theorem stackChangesOnlyByCallAndReturn : Obligations.StackChangesOnlyByCallAndReturn := by
  intro i s t h
  cases exec_effect h with
  | calls nnn k hk =>
    refine ⟨fun j hj => ⟨?_, nnn, rfl⟩, fun _ => .inr ⟨nnn, rfl⟩⟩
    by_contra hne
    exact hj (Vector.getElem_set_ne k.isLt j.isLt (by omega))
  | returns => exact ⟨fun _ hj => absurd rfl hj, fun _ => .inl rfl⟩
  | _ => exact ⟨fun _ hj => absurd rfl hj, fun hsp => absurd rfl hsp⟩

/-- Settles O49: of the effects, only the two display instructions' write the display, and both set
`draw_pending`. -/
theorem displayChangesOnlyByDisplayInstructions :
    Obligations.DisplayChangesOnlyByDisplayInstructions := by
  intro i s t h
  cases exec_effect h with
  | clears => exact ⟨fun _ => .inl rfl, fun _ => rfl⟩
  | blits x y n => exact ⟨fun _ => .inr ⟨x, y, n, rfl⟩, fun _ => rfl⟩
  | _ => exact ⟨fun hd => hd.elim (absurd rfl) (absurd rfl), id⟩

/-- Settles O50: each of these parts is written by the effects of its own instruction alone, `halted` and
`stop` by the normal halt and by errors. -/
theorem controlStateChangesOnlyAsNamed : Obligations.ControlStateChangesOnlyAsNamed := by
  intro i s t h
  cases exec_effect h with
  | raises | halts | draws | waits | setsDelay | setsSound => simp
  | registers | jumps | calls | returns | clears | blits | indexes | stores => simp

end Sys2Proof.Proofs
end

section
/-! SUPPORT. What a store leaves in memory, byte by byte (42_index_memory.md R234, R235), and the
statements of 20_memory.md. -/

namespace Sys2Proof.Machine

open Sys2Proof.Statements

/-- Written from `I` on, the three digits stand where R234 says. -/
theorem read_writeData_bcdDigits {s : State} (hm : s.mem.wf) (x : RegIdx)
    (hin : s.dataAddr 2 ≤ 0xFFF) (a : Nat) :
    (s.writeData (bcdDigits (s.reg x))).mem.read a = byteAfter s (.storeBcd x) a := by
  have hread := Memory.read_writeBytes hm (s.dataAddr 0) (bcdDigits (s.reg x))
    (by simp only [State.dataAddr, bcdDigits_length, Config.memSize] at *; omega) a
  rw [State.writeData_mem, hread]
  by_cases hstored : ∃ k : Fin 3, a = s.dataAddr k
  · obtain ⟨k, rfl⟩ := hstored
    match k with
    | 0 | 1 | 2 => simp [byteAfter, State.dataAddr, bcdDigits, State.reg]
  · have hne : ∀ k : Fin 3, a ≠ s.dataAddr k := fun k hk => hstored ⟨k, hk⟩
    have h0 : a ≠ s.dataAddr 0 := hne 0
    have h1 : a ≠ s.dataAddr 1 := hne 1
    have h2 : a ≠ s.dataAddr 2 := hne 2
    have houtside : ¬(s.dataAddr 0 ≤ a ∧ a - s.dataAddr 0 < (bcdDigits (s.reg x)).length) := by
      simp only [State.dataAddr, bcdDigits_length] at *
      omega
    simp only [byteAfter, dif_neg houtside, if_neg h0, if_neg h1, if_neg h2]

/-- Written from `I` on, the registers `V[0]` to `V[x]` stand where R235 says. -/
theorem read_writeData_registers {s : State} (hm : s.mem.wf) (x : RegIdx)
    (hin : s.dataAddr x.val ≤ 0xFFF) (a : Nat) :
    (s.writeData (s.v.toList.take (x.val + 1))).mem.read a = byteAfter s (.storeRegisters x) a := by
  have hlen : (s.v.toList.take (x.val + 1)).length = x.val + 1 := by
    rw [List.length_take, Vector.length_toList]
    omega
  have hread := Memory.read_writeBytes hm (s.dataAddr 0) (s.v.toList.take (x.val + 1))
    (by simp only [State.dataAddr, hlen, Config.memSize] at *; omega) a
  rw [State.writeData_mem, hread]
  by_cases hstored : s.dataAddr 0 ≤ a ∧ a - s.dataAddr 0 ≤ x.val
  · rw [dif_pos ⟨hstored.1, by omega⟩]
    simp [byteAfter, hstored]
  · rw [dif_neg (by omega)]
    simp only [byteAfter, dif_neg hstored]

/-- A store in range changes memory and `pc` alone, and every byte is then as `byteAfter` says. -/
theorem exec_store {i : Instr} {s : State} (hm : s.mem.wf)
    (hi : ∃ x, i = .storeBcd x ∨ i = .storeRegisters x) (hin : s.dataAddr (accessed i - 1) ≤ 0xFFF) :
    ∃ m : Memory, exec i s = .next { s with mem := m }.advance ∧ ∀ a, m.read a = byteAfter s i a := by
  obtain ⟨x, rfl | rfl⟩ := hi
  · refine ⟨_, ?_, read_writeData_bcdDigits hm x hin⟩
    exact congrArg Host.Outcome.next (State.withData_of_fits (.inr hin) _)
  · refine ⟨_, ?_, read_writeData_registers hm x hin⟩
    exact congrArg Host.Outcome.next (State.withData_of_fits (.inr hin) _)

end Sys2Proof.Machine

namespace Sys2Proof.Proofs

open Sys2Proof.Machine Sys2Proof.Safety Sys2Proof.Statements

/-- Settles O39: a running machine whose fetch faults takes the error branch of the step, which ends with
the key sample and no tick. -/
theorem fetchPastMemoryRaises : Obligations.FetchPastMemoryRaises :=
  fun _ hr hp => step_of_fetch_fault hr hp

/-- Settles O46: of the effects, only a store's writes memory, with the frame of `storesAt`. -/
theorem memoryChangesOnlyWhereStored : Obligations.MemoryChangesOnlyWhereStored := by
  intro i s t hm h a ha
  cases exec_effect h with
  | stores _ _ _ hread => exact hread hm a ha
  | _ => rfl

/-- Settles O51: a fetch reads the bytes `exec_store` leaves. The step of the store moves `pc` by 2 and
changes no memory after the handler, so the next fetch is one of these. -/
theorem storeIsSeenByNextFetch : Obligations.StoreIsSeenByNextFetch := by
  intro i s hm hi hin
  obtain ⟨m, hexec, hread⟩ := exec_store hm hi hin
  have fetched : ∀ t : State, t.mem = m → t.pc.toNat + 1 < 4096 →
      t.fetch = some (beWord (byteAfter s i t.pc.toNat) (byteAfter s i (t.pc.toNat + 1))) := by
    rintro t rfl hp
    rw [State.fetch_of_lt hp, hread, hread]
  refine ⟨⟨_, hexec, rfl, fun p hp => fetched _ rfl hp⟩, fun hr hat hp => ?_⟩
  refine ⟨_, step_of_exec hr hat hexec, ?_⟩
  have hrunning : ({ s with mem := m }.advance : State).halted = false := hr.1
  have hnext : (s.pc + 2).toNat = s.pc.toNat + 2 := by bv_omega
  rw [State.finish_of_running hrunning, fetched _ rfl (show (s.pc + 2).toNat + 1 < 4096 by omega)]
  show some (beWord (byteAfter s i (s.pc + 2).toNat) (byteAfter s i ((s.pc + 2).toNat + 1))) = _
  rw [hnext]

end Sys2Proof.Proofs
end

section
/-! SUPPORT. Decode and encode (30_encoding.md R103 to R106): the instruction a word decodes to is the one
well-formed instruction with that word, by way of the rows of R105 and the unknown space; and the
statements of 30_encoding.md. -/

namespace Sys2Proof

open Sys2Proof.Statements

/-- `w` is the word of the well-formed instruction `i`. -/
def Instr.HasWord (i : Instr) (w : Word) : Prop := encode i = w ∧ i.wellFormed = true

/-! ### The unknown space decodes to unknown-opcode (R106) -/

theorem decodeZero_of_unknown {w : Word} (h : w.toNat ∉ [0x0000, 0x00E0, 0x00EE]) :
    decodeZero w = .unknownOpcode w := by
  simp_all [decodeZero, ← BitVec.toNat_inj]

theorem decodeAlu_of_unknown {w : Word} (h : (nField w).val ∉ [0, 1, 2, 3, 4, 5, 6, 7, 0xE]) :
    decodeAlu w = .unknownOpcode w := by
  unfold decodeAlu
  split <;> simp_all

theorem decodeKey_of_unknown {w : Word} (h : (nnField w).toNat ∉ [0x9E, 0xA1]) :
    decodeKey w = .unknownOpcode w := by
  simp_all [decodeKey]

theorem decodeMisc_of_unknown {w : Word}
    (h : (nnField w).toNat ∉ [0x07, 0x0A, 0x15, 0x18, 0x1E, 0x29, 0x33, 0x55, 0x65]) :
    decodeMisc w = .unknownOpcode w := by
  simp_all [decodeMisc]

/-- The unknown space in the decoder's own fields: in six of the sixteen high nibbles, the words whose
sub-opcode no row has. -/
theorem unknownWord_iff_fields (w : Word) : unknownWord w = true ↔
    opField w = 0x0 ∧ w.toNat ∉ [0x0000, 0x00E0, 0x00EE] ∨
    opField w = 0x5 ∧ (nField w).val ≠ 0 ∨
    opField w = 0x8 ∧ (nField w).val ∉ [0, 1, 2, 3, 4, 5, 6, 7, 0xE] ∨
    opField w = 0x9 ∧ (nField w).val ≠ 0 ∨
    opField w = 0xE ∧ (nnField w).toNat ∉ [0x9E, 0xA1] ∨
    opField w = 0xF ∧ (nnField w).toNat ∉ [0x07, 0x0A, 0x15, 0x18, 0x1E, 0x29, 0x33, 0x55, 0x65] := by
  simp only [unknownWord, ← opField_eq, ← nField_val, ← nnField_toNat]
  split_ifs <;> simp_all

theorem decodeWord_of_unknown {w : Word} (h : unknownWord w = true) : decodeWord w = .unknownOpcode w := by
  rcases (unknownWord_iff_fields w).1 h with
    ⟨op, h⟩ | ⟨op, h⟩ | ⟨op, h⟩ | ⟨op, h⟩ | ⟨op, h⟩ | ⟨op, h⟩ <;>
    simp only [decodeWord, op]
  · exact decodeZero_of_unknown h
  · exact if_neg h
  · exact decodeAlu_of_unknown h
  · exact if_neg h
  · exact decodeKey_of_unknown h
  · exact decodeMisc_of_unknown h

/-! ### Decode gives back the instruction encoded (R104) -/

/-- A word decodes to the well-formed instruction whose word it is: the encoder's fields are read back. -/
theorem decodeWord_of_hasWord {i : Instr} {w : Word} (h : i.HasWord w) : decodeWord w = i := by
  obtain ⟨rfl, hwf⟩ := h
  cases i with
  | unknownOpcode w => exact decodeWord_of_unknown hwf
  | explicitHalt | clearDisplay | ret => rfl
  | jump _ | call _ | loadIndex _ | jumpIndexed _ => simp [encode, decodeWord]
  | skipIfEqImm _ _ | skipIfNeImm _ _ | loadImm _ _ | addImm _ _ | random _ _ =>
    simp [encode, decodeWord]
  | skipIfEqReg _ _ | skipIfNeReg _ _ => simp [encode, decodeWord]
  | drawSprite _ _ n => simp [encode, decodeWord, nibble]
  | move _ _ | or _ _ | and _ _ | xor _ _ | addWithCarry _ _ | subWithBorrow _ _ | shiftRight _ _
  | reverseSub _ _ | shiftLeft _ _ => simp [encode, decodeWord, decodeAlu]
  | skipIfKeyDown _ | skipIfKeyUp _ => simp [encode, decodeWord, decodeKey]
  | getDelay _ | waitForKey _ | setDelay _ | setSound _ | addToIndex _ | spriteAddress _ | storeBcd _
  | storeRegisters _ | loadRegisters _ => simp [encode, decodeWord, decodeMisc]

/-! ### The words of the table's fields (R101, R105) -/

theorem wordNnn_fnnn {op : BitVec 4} {w : Word} (hop : w.toNat / 0x1000 = op.toNat) :
    wordNnn op (fnnn w) = w := by
  apply BitVec.eq_of_toNat_eq
  rw [wordNnn_toNat, fnnn, BitVec.toNat_ofNat]
  omega

theorem wordXnn_fields {op : BitVec 4} {nn : Byte} {w : Word} (hop : w.toNat / 0x1000 = op.toNat)
    (hnn : w.toNat % 0x100 = nn.toNat) : wordXnn op (fx w) nn = w := by
  apply BitVec.eq_of_toNat_eq
  rw [wordXnn_toNat]
  simp only [fx]
  omega

theorem wordXyn_fields {op n : BitVec 4} {w : Word} (hop : w.toNat / 0x1000 = op.toNat)
    (hn : w.toNat % 0x10 = n.toNat) : wordXyn op (fx w) (fy w) n = w := by
  apply BitVec.eq_of_toNat_eq
  rw [wordXyn_toNat]
  simp only [fx, fy]
  omega

theorem fnn_toNat (w : Word) : (fnn w).toNat = w.toNat % 0x100 := by
  rw [fnn, BitVec.toNat_ofNat]
  omega

end Sys2Proof

namespace Sys2Proof.Statements

/-! ### The rows of the table (R105), one lemma per shape of encoding -/

/-- The row gives every word that selects it the instruction that word is the word of. -/
def Row.Sound (r : Row) : Prop := ∀ w : Word, r.selects w = true → (r.instr w).HasWord w

theorem Row.selects_iff (r : Row) (w : Word) : r.selects w = true ↔ w &&& r.mask = r.value := beq_iff_eq

theorem Row.Sound.word {c : Word} {i : Instr} (hi : i.HasWord c) : Row.Sound ⟨0xFFFF, c, fun _ => i⟩ := by
  intro w h
  have hw : w = c := BitVec.and_allOnes.symm.trans ((Row.selects_iff _ w).1 h)
  exact hw ▸ hi

theorem Row.Sound.nnn {c : Word} {f : Addr12 → Instr} (op : BitVec 4) (hc : c.toNat = op.toNat * 0x1000)
    (hf : ∀ nnn, (f nnn).HasWord (wordNnn op nnn)) : Row.Sound ⟨0xF000, c, fun w => f (fnnn w)⟩ := by
  intro w h
  have hm := (mask_op_iff w c).1 ((Row.selects_iff _ w).1 h)
  have hw : wordNnn op (fnnn w) = w := wordNnn_fnnn (by omega)
  simpa only [hw] using hf (fnnn w)

theorem Row.Sound.xnn {c : Word} {f : RegIdx → Byte → Instr} (op : BitVec 4)
    (hc : c.toNat = op.toNat * 0x1000) (hf : ∀ x nn, (f x nn).HasWord (wordXnn op x nn)) :
    Row.Sound ⟨0xF000, c, fun w => f (fx w) (fnn w)⟩ := by
  intro w h
  have hm := (mask_op_iff w c).1 ((Row.selects_iff _ w).1 h)
  have hw : wordXnn op (fx w) (fnn w) = w := wordXnn_fields (by omega) (fnn_toNat w).symm
  simpa only [hw] using hf (fx w) (fnn w)

theorem Row.Sound.xyn {c : Word} {f : RegIdx → RegIdx → Fin 16 → Instr} (op : BitVec 4)
    (hc : c.toNat = op.toNat * 0x1000) (hf : ∀ x y n, (f x y n).HasWord (wordXyn op x y (nibble n))) :
    Row.Sound ⟨0xF000, c, fun w => f (fx w) (fy w) (fn w)⟩ := by
  intro w h
  have hm := (mask_op_iff w c).1 ((Row.selects_iff _ w).1 h)
  have hw : wordXyn op (fx w) (fy w) (nibble (fn w)) = w := wordXyn_fields (by omega) rfl
  simpa only [hw] using hf (fx w) (fy w) (fn w)

theorem Row.Sound.xy {c : Word} {f : RegIdx → RegIdx → Instr} (op n : BitVec 4)
    (hc : c.toNat = op.toNat * 0x1000 + n.toNat) (hf : ∀ x y, (f x y).HasWord (wordXyn op x y n)) :
    Row.Sound ⟨0xF00F, c, fun w => f (fx w) (fy w)⟩ := by
  intro w h
  have hm := (mask_op_n_iff w c).1 ((Row.selects_iff _ w).1 h)
  have := n.isLt
  have hw : wordXyn op (fx w) (fy w) n = w := wordXyn_fields (by omega) (by omega)
  simpa only [hw] using hf (fx w) (fy w)

theorem Row.Sound.x {c : Word} {f : RegIdx → Instr} (op : BitVec 4) (nn : Byte)
    (hc : c.toNat = op.toNat * 0x1000 + nn.toNat) (hf : ∀ x, (f x).HasWord (wordXnn op x nn)) :
    Row.Sound ⟨0xF0FF, c, fun w => f (fx w)⟩ := by
  intro w h
  have hm := (mask_op_nn_iff w c).1 ((Row.selects_iff _ w).1 h)
  have := nn.isLt
  have hw : wordXnn op (fx w) nn = w := wordXnn_fields (by omega) (by omega)
  simpa only [hw] using hf (fx w)

/-- Every row of the table, in the order of R104. -/
theorem rows_sound : ∀ r ∈ rows, r.Sound := by
  simp only [rows, List.forall_mem_append, List.forall_mem_cons]
  refine ⟨⟨?_, ?_⟩, ?_⟩
  · exact ⟨.word ⟨rfl, rfl⟩, .word ⟨rfl, rfl⟩, .word ⟨rfl, rfl⟩,
      .nnn (f := .jump) 0x1 rfl fun _ => ⟨rfl, rfl⟩,
      .nnn (f := .call) 0x2 rfl fun _ => ⟨rfl, rfl⟩,
      .xnn (f := .skipIfEqImm) 0x3 rfl fun _ _ => ⟨rfl, rfl⟩,
      .xnn (f := .skipIfNeImm) 0x4 rfl fun _ _ => ⟨rfl, rfl⟩,
      .xy (f := .skipIfEqReg) 0x5 0x0 rfl fun _ _ => ⟨rfl, rfl⟩,
      .xnn (f := .loadImm) 0x6 rfl fun _ _ => ⟨rfl, rfl⟩,
      .xnn (f := .addImm) 0x7 rfl fun _ _ => ⟨rfl, rfl⟩,
      .xy (f := .skipIfNeReg) 0x9 0x0 rfl fun _ _ => ⟨rfl, rfl⟩,
      .nnn (f := .loadIndex) 0xA rfl fun _ => ⟨rfl, rfl⟩,
      .nnn (f := .jumpIndexed) 0xB rfl fun _ => ⟨rfl, rfl⟩,
      .xnn (f := .random) 0xC rfl fun _ _ => ⟨rfl, rfl⟩,
      .xyn (f := .drawSprite) 0xD rfl fun _ _ _ => ⟨rfl, rfl⟩, nofun⟩
  · exact ⟨.xy (f := .move) 0x8 0x0 rfl fun _ _ => ⟨rfl, rfl⟩,
      .xy (f := .or) 0x8 0x1 rfl fun _ _ => ⟨rfl, rfl⟩,
      .xy (f := .and) 0x8 0x2 rfl fun _ _ => ⟨rfl, rfl⟩,
      .xy (f := .xor) 0x8 0x3 rfl fun _ _ => ⟨rfl, rfl⟩,
      .xy (f := .addWithCarry) 0x8 0x4 rfl fun _ _ => ⟨rfl, rfl⟩,
      .xy (f := .subWithBorrow) 0x8 0x5 rfl fun _ _ => ⟨rfl, rfl⟩,
      .xy (f := .shiftRight) 0x8 0x6 rfl fun _ _ => ⟨rfl, rfl⟩,
      .xy (f := .reverseSub) 0x8 0x7 rfl fun _ _ => ⟨rfl, rfl⟩,
      .xy (f := .shiftLeft) 0x8 0xE rfl fun _ _ => ⟨rfl, rfl⟩, nofun⟩
  · exact ⟨.x (f := .skipIfKeyDown) 0xE 0x9E rfl fun _ => ⟨rfl, rfl⟩,
      .x (f := .skipIfKeyUp) 0xE 0xA1 rfl fun _ => ⟨rfl, rfl⟩,
      .x (f := .getDelay) 0xF 0x07 rfl fun _ => ⟨rfl, rfl⟩,
      .x (f := .waitForKey) 0xF 0x0A rfl fun _ => ⟨rfl, rfl⟩,
      .x (f := .setDelay) 0xF 0x15 rfl fun _ => ⟨rfl, rfl⟩,
      .x (f := .setSound) 0xF 0x18 rfl fun _ => ⟨rfl, rfl⟩,
      .x (f := .addToIndex) 0xF 0x1E rfl fun _ => ⟨rfl, rfl⟩,
      .x (f := .spriteAddress) 0xF 0x29 rfl fun _ => ⟨rfl, rfl⟩,
      .x (f := .storeBcd) 0xF 0x33 rfl fun _ => ⟨rfl, rfl⟩,
      .x (f := .storeRegisters) 0xF 0x55 rfl fun _ => ⟨rfl, rfl⟩,
      .x (f := .loadRegisters) 0xF 0x65 rfl fun _ => ⟨rfl, rfl⟩, nofun⟩

/-! ### The rows do not overlap -/

/-- Any two rows ask for different bits somewhere in the bits both their masks read. -/
theorem rows_values_differ : rows.Pairwise fun a b => a.value &&& b.mask ≠ b.value &&& a.mask := by decide

/-- A word that selects two rows has, in the bits both masks read, the bits of both values. -/
theorem Row.values_agree {a b : Row} {w : Word} (ha : a.selects w = true) (hb : b.selects w = true) :
    a.value &&& b.mask = b.value &&& a.mask := by
  rw [← (a.selects_iff w).1 ha, ← (b.selects_iff w).1 hb, BitVec.and_assoc, BitVec.and_assoc,
    BitVec.and_comm a.mask]

/-! ### Where no row matches -/

theorem opField_lt (w : Word) : opField w < 16 := (bits w 12 4).isLt

/-! Whether a word selects a row, in the decoder's fields, for each of the four masks of R105. -/

theorem Row.not_selects_word_iff (c : Word) (f : Word → Instr) (w : Word) :
    Row.selects ⟨0xFFFF, c, f⟩ w = false ↔ w.toNat ≠ c.toNat := by
  rw [← Bool.not_eq_true, Row.selects_iff, ne_eq, BitVec.toNat_inj]
  exact not_congr (Eq.congr_left BitVec.and_allOnes)

theorem Row.not_selects_op_iff (c : Word) (f : Word → Instr) (w : Word) :
    Row.selects ⟨0xF000, c, f⟩ w = false ↔ opField w * 0x1000 ≠ c.toNat := by
  rw [← Bool.not_eq_true, Row.selects_iff, opField_eq]
  exact not_congr (mask_op_iff w c)

theorem Row.not_selects_op_n_iff (c : Word) (f : Word → Instr) (w : Word) :
    Row.selects ⟨0xF00F, c, f⟩ w = false ↔ opField w * 0x1000 + (nField w).val ≠ c.toNat := by
  rw [← Bool.not_eq_true, Row.selects_iff, opField_eq, nField_val]
  exact not_congr (mask_op_n_iff w c)

theorem Row.not_selects_op_nn_iff (c : Word) (f : Word → Instr) (w : Word) :
    Row.selects ⟨0xF0FF, c, f⟩ w = false ↔ opField w * 0x1000 + (nnField w).toNat ≠ c.toNat := by
  rw [← Bool.not_eq_true, Row.selects_iff, opField_eq, nnField_toNat]
  exact not_congr (mask_op_nn_iff w c)

/-- A word that no row's value fits is in the unknown space: its high nibble is one of the six that have
sub-opcodes, and its sub-opcode is none of the rows'. -/
theorem unknownWord_of_no_row {w : Word} (h : ∀ r ∈ rows, r.selects w = false) : unknownWord w = true := by
  simp only [rows, List.forall_mem_append, List.forall_mem_cons, Row.not_selects_word_iff,
    Row.not_selects_op_iff, Row.not_selects_op_n_iff, Row.not_selects_op_nn_iff, BitVec.reduceToNat] at h
  obtain ⟨⟨hcontrol, halu⟩, hmisc⟩ := h
  have hop : opField w = 0x0 ∨ opField w = 0x5 ∨ opField w = 0x8 ∨ opField w = 0x9 ∨ opField w = 0xE ∨
      opField w = 0xF := by
    have := opField_lt w
    omega
  rw [unknownWord_iff_fields]
  rcases hop with op | op | op | op | op | op
  all_goals
    rw [op] at hcontrol halu hmisc
    simp [op]
    omega

theorem rows_instr_ne_unknown : ∀ r ∈ rows, ∀ w v : Word, r.instr w ≠ .unknownOpcode v := by
  simp [rows]

/-! ### Decode by the rows -/

theorem decodeWord_of_selects {r : Row} (hr : r ∈ rows) {w : Word} (h : r.selects w = true) :
    decodeWord w = r.instr w :=
  decodeWord_of_hasWord (rows_sound r hr w h)

/-- The unknown space is what the rows leave (R106): a word in it decodes to unknown-opcode, which is no
row's instruction. -/
theorem unknownWord_iff (w : Word) : unknownWord w = true ↔ ∀ r ∈ rows, r.selects w = false := by
  refine ⟨fun hu r hr => ?_, unknownWord_of_no_row⟩
  by_contra hs
  have hdecode := decodeWord_of_selects hr (Bool.eq_true_of_not_eq_false hs)
  exact rows_instr_ne_unknown r hr w w (hdecode.symm.trans (decodeWord_of_unknown hu))

theorem decodeWord_of_no_row {w : Word} (h : ∀ r ∈ rows, r.selects w = false) :
    decodeWord w = .unknownOpcode w :=
  decodeWord_of_unknown (unknownWord_of_no_row h)

/-- Every word is the word of the instruction it decodes to, a row's or unknown-opcode. -/
theorem hasWord_decodeWord (w : Word) : (decodeWord w).HasWord w := by
  by_cases h : ∃ r ∈ rows, r.selects w = true
  · obtain ⟨r, hr, hs⟩ := h
    exact decodeWord_of_selects hr hs ▸ rows_sound r hr w hs
  · have hnone : ∀ r ∈ rows, r.selects w = false := by simpa using h
    exact decodeWord_of_no_row hnone ▸ ⟨rfl, unknownWord_of_no_row hnone⟩

end Sys2Proof.Statements

namespace Sys2Proof.Machine

/-- Every handler answers a next state: no arm of `exec` faults or is refused. -/
theorem exec_answers (i : Instr) (s : State) : ∃ t, exec i s = .next t := by
  cases i with
  | ret =>
    show ∃ t, execRet s = .next t
    unfold execRet
    cases s.pop <;> exact ⟨_, rfl⟩
  | call nnn =>
    show ∃ t, execCall nnn s = .next t
    unfold execCall
    cases s.push (s.pc + 2) <;> exact ⟨_, rfl⟩
  | _ => exact ⟨_, rfl⟩

end Sys2Proof.Machine

namespace Sys2Proof.Proofs

open Sys2Proof.Machine Sys2Proof.Safety Sys2Proof.Statements

/-- Settles O4: the encoder's fields are read back, and a word's two bytes make up the word again. -/
theorem decodeInvertsEncode : Obligations.DecodeInvertsEncode := by
  intro i hwf
  have hdecode : decodeWord (encode i) = i := decodeWord_of_hasWord ⟨rfl, hwf⟩
  exact ⟨hdecode, fun rest => by rw [encodeBytes, decodeBytes_beBytes, hdecode]⟩

/-- Settles O1: whichever row the search finds, the word selects it. -/
theorem decodeIsFirstMatchOfPrecedenceList : Obligations.DecodeIsFirstMatchOfPrecedenceList := by
  intro w
  split
  · next r hr =>
    have hs : r.selects w = true := List.find?_some (p := fun r : Row => r.selects w) hr
    exact decodeWord_of_selects (List.mem_of_find?_eq_some hr) hs
  · next hnone => exact decodeWord_of_no_row (by simpa using hnone)

/-- Settles O2: a selected row is sound, no row selected leaves the unknown space, and two rows selected by
one word would agree in the bits both masks read. -/
theorem tableRowsAreDisjoint : Obligations.TableRowsAreDisjoint :=
  ⟨fun _ hr _ hs => decodeWord_of_selects hr hs, fun _ hnone => decodeWord_of_no_row hnone,
    rows_values_differ.imp fun hne _ ⟨ha, hb⟩ => hne (Row.values_agree ha hb)⟩

/-- Settles O3: what a word decodes to is well-formed, so an unknown-opcode carries a word of the unknown
space. -/
theorem unknownOpcodeIsTheUnknownSpace : Obligations.UnknownOpcodeIsTheUnknownSpace := by
  intro w
  have hwf := (hasWord_decodeWord w).2
  exact ⟨hwf, ⟨fun h => by rwa [h] at hwf, decodeWord_of_unknown⟩, unknownWord_iff w⟩

/-- Settles O5: what a word decodes to has that word. -/
theorem encodeInvertsDecode : Obligations.EncodeInvertsDecode := fun w => (hasWord_decodeWord w).1

/-- Settles O33: each of the four branches of a step answers a next state. -/
theorem everyStepHasNextState : Obligations.EveryStepHasNextState := by
  intro s
  cases hh : s.halted with
  | true => exact ⟨_, step_of_halted hh⟩
  | false =>
    cases ha : s.awaitingKey with
    | true => exact ⟨_, step_of_waiting hh ha⟩
    | false =>
      by_cases hp : s.pc.toNat + 1 ≥ 4096
      · exact ⟨_, step_of_fetch_fault ⟨hh, ha⟩ hp⟩
      · obtain ⟨t, ht⟩ := exec_answers _ s
        exact ⟨_, step_of_exec ⟨hh, ha⟩ ⟨by omega, rfl⟩ ht⟩

/-- Settles O6, by running the decoder on the nine words. -/
theorem sampleWordsDecodeAsWritten : Obligations.SampleWordsDecodeAsWritten := by
  unfold Obligations.SampleWordsDecodeAsWritten
  decide

end Sys2Proof.Proofs
end

section
/-! SUPPORT. What the control-flow handlers answer, one equation per branch (40_control_flow.md R140 to
R150), and the statements of 40_control_flow.md. -/

namespace Sys2Proof.Statements

/-- A row of the table is the encoding of its instruction. -/
theorem encoded_of_mem_rows {mask value : Word} {instr : Word → Instr}
    (h : ⟨mask, value, instr⟩ ∈ rows) : Encoded mask value instr :=
  fun w hw => decodeWord_of_selects h ((Row.selects_iff _ w).2 hw)

end Sys2Proof.Statements

namespace Sys2Proof.Machine

/-! ### call and return (R143, R145) -/

theorem exec_call_of_lt {s : State} (h : s.sp.val < 16) (nnn : Addr12) :
    exec (.call nnn) s = .next { s with
      stack := s.stack.set s.sp.val (s.pc + 2), sp := ⟨s.sp.val + 1, by omega⟩, pc := zext16 nnn } := by
  show execCall nnn s = _
  rw [execCall, State.push_of_lt h]
  rfl

theorem exec_call_of_full {s : State} (h : s.sp.val = 16) (nnn : Addr12) :
    exec (.call nnn) s = .next (s.raise .stackOverflow s.pc) := by
  show execCall nnn s = _
  rw [execCall, State.push_full h]

theorem exec_ret_of_eq {s : State} {k : Fin 16} (h : s.sp.val = k.val + 1) :
    exec .ret s = .next { s with sp := k.castSucc, pc := s.stack[k] } := by
  show execRet s = _
  rw [execRet, State.pop_of_eq h]
  rfl

theorem exec_ret_of_empty {s : State} (h : s.sp.val = 0) :
    exec .ret s = .next (s.raise .stackUnderflow s.pc) := by
  show execRet s = _
  rw [execRet, State.pop_empty h]

/-! ### Targets and conditions (R144, R146 to R150) -/

/-- The sum of a 12-bit address and a byte does not wrap (R150). -/
theorem zext16_add_toNat (nnn : Addr12) (b : Byte) :
    (zext16 nnn + zext16 b).toNat = nnn.toNat + b.toNat := by
  have := nnn.isLt
  have := b.isLt
  rw [BitVec.toNat_add, zext16_toNat (by decide), zext16_toNat (by decide)]
  omega

/-- A skip on a proposition its condition decides. -/
theorem State.skipIf_of_iff (s : State) {c : Bool} {p : Prop} [Decidable p] (h : c = true ↔ p) :
    s.skipIf c = { s with pc := if p then s.pc + 4 else s.pc + 2 } := by
  simp only [State.skipIf, h]

/-! ### The end of a step that halts normally (R140, R327) -/

/-- A normal halt is no error: the step that makes it still ticks the timers (D9). -/
theorem State.finish_haltNormally (s : State) :
    s.finish s.haltNormally = s.recordSample s.haltNormally.tick := rfl

end Sys2Proof.Machine

namespace Sys2Proof.Proofs

open Sys2Proof.Machine Sys2Proof.Safety Sys2Proof.Statements

/-- Settles O20: with a free slot, the equation of the pushing branch read off slot by slot. -/
theorem callPushesAddressAfterIt : Obligations.CallPushesAddressAfterIt := by
  intro nnn s
  refine ⟨fun hlt => ⟨_, exec_call_of_lt hlt nnn, fun k => ?_, rfl, ?_⟩,
    fun hfull => exec_call_of_full hfull nnn⟩
  · exact (Vector.getElem_set hlt k.isLt).trans (if_congr eq_comm rfl rfl)
  · rw [← zext16_eq_ofNat]

/-- Settles O21, by the two branches of return. -/
theorem returnPopsNewestAddress : Obligations.ReturnPopsNewestAddress :=
  fun _ => ⟨fun _ hk => ⟨_, exec_ret_of_eq hk, rfl, rfl, rfl⟩, exec_ret_of_empty⟩

/-- Settles O22: the slot the return pops is the one the call pushed to. -/
theorem returnAfterCallResumesAfterIt : Obligations.ReturnAfterCallResumesAfterIt := by
  intro nnn s t hlt hcall
  rw [exec_call_of_lt hlt] at hcall
  cases hcall
  refine ⟨_, exec_ret_of_eq (k := ⟨s.sp.val, hlt⟩) rfl, ?_, rfl, fun k hk => ?_⟩
  · exact Vector.getElem_set_self hlt
  · exact Vector.getElem_set_ne hlt k.isLt (Ne.symm hk)

/-- Settles O18: the handler halts and raises nothing, so its step ends with the tick. -/
theorem explicitHaltHaltsNormally : Obligations.ExplicitHaltHaltsNormally := by
  refine ⟨encoded_of_mem_rows (by simp [rows]), fun s => ?_⟩
  have hexec : exec .explicitHalt s = .next s.haltNormally := rfl
  refine ⟨hexec, fun hr hat => ⟨_, step_of_exec hr hat hexec, ?_⟩⟩
  rw [State.finish_haltNormally]
  exact ⟨rfl, rfl, rfl, tickTimer_toNat _, tickTimer_toNat _⟩

/-- Settles O19: both write their target to `pc` alone, and the indexed sum does not wrap. -/
theorem jumpsSetPcToTheirTarget : Obligations.JumpsSetPcToTheirTarget := by
  refine ⟨encoded_of_mem_rows (by simp [rows]), encoded_of_mem_rows (by simp [rows]),
    fun nnn s => ⟨?_, ?_⟩⟩
  · rw [← zext16_eq_ofNat]
    rfl
  · exact ⟨s.jumpTo (zext16 nnn + zext16 (s.reg 0)), rfl, zext16_add_toNat nnn _, rfl⟩

/-- Settles O23: each skip's condition decides the proposition its rule states. -/
theorem skipsMovePcByFourOrTwo : Obligations.SkipsMovePcByFourOrTwo := by
  refine ⟨encoded_of_mem_rows (by simp [rows]), encoded_of_mem_rows (by simp [rows]),
    encoded_of_mem_rows (by simp [rows]), encoded_of_mem_rows (by simp [rows]), fun x y nn s => ?_⟩
  refine ⟨?_, ?_, ?_, ?_⟩ <;> apply congrArg Host.Outcome.next
  · exact s.skipIf_of_iff beq_iff_eq
  · exact s.skipIf_of_iff bne_iff_ne
  · exact s.skipIf_of_iff beq_iff_eq
  · exact s.skipIf_of_iff bne_iff_ne

end Sys2Proof.Proofs
end

section
/-! SUPPORT. What a flag-writing register operation leaves (R32, R187 to R191), and the statements of
41_alu.md. -/

namespace Sys2Proof.Statements

open Sys2Proof.Machine

/-- A result and then its flag, written last, is what `FlagWrite` asks for: the flag survives also where
the destination is `VF` (R32). -/
theorem flagWrite_setRegFlag (s : State) (x : RegIdx) {b : Byte} {f : Bool} {result : Nat} {flag : Prop}
    (hb : b.toNat = result) (hf : f = true ↔ flag) :
    FlagWrite s (s.setRegFlag x b f).advance x result flag := by
  have hvF : (s.setRegFlag x b f).reg vF = flagByte f := s.reg_setRegFlag_vF x b f
  refine ⟨fun h => ?_, fun h => ?_, fun hx => ?_, fun k hk hkF => ?_, rfl⟩
  · exact hvF.trans (if_pos (hf.2 h))
  · exact hvF.trans (if_neg (mt hf.1 h))
  · exact (congrArg BitVec.toNat (s.reg_setRegFlag_dest hx b f)).trans hb
  · exact s.reg_setRegFlag_other hk.symm hkF b f

end Sys2Proof.Statements

namespace Sys2Proof.Machine

theorem addByte_eq_ofNat (a b : Byte) : addByte a b = BitVec.ofNat 8 ((a.toNat + b.toNat) % 256) :=
  BitVec.eq_of_toNat_eq (by simp [addByte_toNat])

end Sys2Proof.Machine

namespace Sys2Proof.Proofs

open Sys2Proof.Machine Sys2Proof.Statements

/-- Settles O9: the carry is taken of the old values and written after the sum. -/
theorem addWithCarryWritesSumAndCarry : Obligations.AddWithCarryWritesSumAndCarry :=
  ⟨encoded_of_mem_rows (by simp [rows]), fun x _ s =>
    ⟨_, rfl, flagWrite_setRegFlag s x (addByte_toNat _ _) (carryOut_iff _ _)⟩⟩

/-- Settles O10: both write the difference and then the comparison of the old values. -/
theorem subtractionsWriteDifferenceAndNoBorrow : Obligations.SubtractionsWriteDifferenceAndNoBorrow :=
  ⟨encoded_of_mem_rows (by simp [rows]), encoded_of_mem_rows (by simp [rows]), fun x _ s =>
    ⟨⟨_, rfl, flagWrite_setRegFlag s x (subByte_toNat _ _) (noBorrow_iff _ _)⟩,
      ⟨_, rfl, flagWrite_setRegFlag s x (subByte_toNat _ _) (noBorrow_iff _ _)⟩⟩⟩

/-- Settles O11: both write the shifted value and then the bit moved out of the old one. -/
theorem shiftsWriteHalfOrDoubleAndBitOut : Obligations.ShiftsWriteHalfOrDoubleAndBitOut :=
  ⟨encoded_of_mem_rows (by simp [rows]), encoded_of_mem_rows (by simp [rows]), fun x _ s =>
    ⟨⟨_, rfl, flagWrite_setRegFlag s x (shrByte_toNat _) (shrOut_iff _)⟩,
      ⟨_, rfl, flagWrite_setRegFlag s x (shlByte_toNat _) (shlOut_iff _)⟩⟩⟩

/-- Settles O7: each handler is the write of its register; the sum's residue is taken by the byte's width. -/
theorem immediatesWriteTheirRegister : Obligations.ImmediatesWriteTheirRegister := by
  refine ⟨encoded_of_mem_rows (by simp [rows]), encoded_of_mem_rows (by simp [rows]),
    fun x nn s => ⟨rfl, ?_⟩⟩
  rw [← addByte_eq_ofNat]
  rfl

/-- Settles O8: each handler is, by its definition, the write of its register and the advance. -/
theorem movesAndLogicWriteTheirRegister : Obligations.MovesAndLogicWriteTheirRegister :=
  ⟨encoded_of_mem_rows (by simp [rows]), encoded_of_mem_rows (by simp [rows]),
    encoded_of_mem_rows (by simp [rows]), encoded_of_mem_rows (by simp [rows]),
    fun _ _ _ => ⟨rfl, rfl, rfl, rfl⟩⟩

/-- Settles O12: the handler draws before it looks at the mask, so `nn = 0` is no case of its own. -/
theorem randomMasksOneDrawnByte : Obligations.RandomMasksOneDrawnByte :=
  ⟨encoded_of_mem_rows (by simp [rows]), fun _ _ _ => rfl⟩

end Sys2Proof.Proofs
end

section
/-! SUPPORT. What an access through `I` answers out of range and what a load in range leaves in the
registers (20_memory.md R80, 42_index_memory.md R236), and the statements of 42_index_memory.md. -/

namespace Sys2Proof.Machine

open Sys2Proof.Statements

/-- Every instruction that accesses memory through `I` raises the error where its last address is above
0xFFF, before any effect (R80, D5). -/
theorem exec_of_out_of_range {i : Instr} {s : State}
    (h : accessed i ≠ 0 ∧ 0xFFF < s.dataAddr (accessed i - 1)) :
    exec i s = .next (s.raise .dataAddressOutOfRange s.i) := by
  cases i with
  | drawSprite | storeBcd | storeRegisters | loadRegisters =>
    exact congrArg Host.Outcome.next (State.withData_of_not_fits h _)
  | _ => exact absurd rfl h.1

/-- A load in range changes registers and `pc` alone: `V[0]` to `V[x]` are the bytes from `I` on. -/
theorem exec_loadRegisters_of_fits {x : RegIdx} {s : State} (hin : s.dataAddr x.val ≤ 0xFFF) :
    ∃ v : Vector Byte 16, exec (.loadRegisters x) s = .next { s with v := v }.advance ∧
      ∀ k : RegIdx, v[k] = if k.val ≤ x.val then s.mem.read (s.dataAddr k.val) else s.v[k] := by
  refine ⟨_, congrArg Host.Outcome.next (State.withData_of_fits (.inr hin) _), fun k => ?_⟩
  have hlen : (s.readData (x.val + 1)).length = x.val + 1 := Memory.length_readBytes ..
  refine (getElem_setRegsFrom _ _ _ _ k.isLt).trans ?_
  by_cases hk : k.val ≤ x.val
  · rw [dif_pos (by omega), if_pos hk]
    exact Memory.getElem_readBytes ..
  · rw [dif_neg (by omega), if_neg hk]
    rfl

/-- The three digits, as numbers, at the addresses of R234. -/
theorem byteAfter_storeBcd_toNat (s : State) (x : RegIdx) :
    (byteAfter s (.storeBcd x) (s.dataAddr 0)).toNat = s.v[x].toNat / 100 ∧
    (byteAfter s (.storeBcd x) (s.dataAddr 1)).toNat = s.v[x].toNat / 10 % 10 ∧
    (byteAfter s (.storeBcd x) (s.dataAddr 2)).toNat = s.v[x].toNat % 10 := by
  have hbyte := s.v[x].isLt
  refine ⟨?_, ?_, ?_⟩ <;> simp [byteAfter, State.dataAddr] <;> omega

/-- The stored registers at the addresses of R235. -/
theorem byteAfter_storeRegisters (s : State) {x k : RegIdx} (hk : k.val ≤ x.val) :
    byteAfter s (.storeRegisters x) (s.dataAddr k.val) = s.v[k] := by
  simp [byteAfter, State.dataAddr, hk]

/-- Addition to `I`, as the residue R232 states. -/
theorem add_zext16_eq_ofNat (a : Word) (b : Byte) :
    a + zext16 b = BitVec.ofNat 16 ((a.toNat + b.toNat) % 65536) := by
  apply BitVec.eq_of_toNat_eq
  rw [BitVec.toNat_add, zext16_toNat (by decide), BitVec.toNat_ofNat, Nat.mod_mod]

end Sys2Proof.Machine

namespace Sys2Proof.Proofs

open Sys2Proof.Machine Sys2Proof.Statements

/-- Settles O14: the digits as `exec_store` leaves them, and the frame of memory. -/
theorem storeBcdWritesThreeDigits : Obligations.StoreBcdWritesThreeDigits := by
  intro x s hm
  refine ⟨fun hin => ?_, fun hout => exec_of_out_of_range ⟨by simp [accessed], hout⟩⟩
  obtain ⟨m, hexec, hread⟩ := exec_store hm ⟨x, .inl rfl⟩ hin
  obtain ⟨hundreds, tens, units⟩ := byteAfter_storeBcd_toNat s x
  simp only [← hread] at hundreds tens units
  refine ⟨_, hexec, hundreds, tens, units, fun a h0 h1 h2 => ?_, rfl⟩
  refine memoryChangesOnlyWhereStored _ s _ hm hexec a ?_
  rintro ⟨k, hk, rfl⟩
  interval_cases k
  · exact h0 rfl
  · exact h1 rfl
  · exact h2 rfl

/-- Settles O15: the registers as `exec_store` leaves them, and the frame of memory. -/
theorem storeRegistersWritesUpToX : Obligations.StoreRegistersWritesUpToX := by
  intro x s hm
  refine ⟨fun hin => ?_, fun hout => exec_of_out_of_range ⟨Nat.succ_ne_zero _, hout⟩⟩
  obtain ⟨m, hexec, hread⟩ := exec_store hm ⟨x, .inr rfl⟩ hin
  refine ⟨_, hexec, fun k hk => (hread _).trans (byteAfter_storeRegisters s hk), fun a ha => ?_, rfl⟩
  exact memoryChangesOnlyWhereStored _ s _ hm hexec a fun ⟨k, hk, heq⟩ => ha k hk heq

/-- Settles O16: the registers as `exec_loadRegisters_of_fits` leaves them. -/
theorem loadRegistersReadsUpToX : Obligations.LoadRegistersReadsUpToX := by
  intro x s
  refine ⟨fun hin => ?_, fun hout => exec_of_out_of_range ⟨Nat.succ_ne_zero _, hout⟩⟩
  obtain ⟨v, hexec, hv⟩ := exec_loadRegisters_of_fits hin
  exact ⟨_, hexec, fun k hk => (hv k).trans (if_pos hk),
    fun k hk => (hv k).trans (if_neg (Nat.not_le.2 hk)), rfl⟩

/-- Settles O17: the store leaves `I` as it was, so the load reads the addresses the store wrote. -/
theorem loadAfterStoreGivesRegistersBack : Obligations.LoadAfterStoreGivesRegistersBack := by
  intro x s t w hm hin hstore
  obtain ⟨t', hexec, hstored, -, hframe⟩ := (storeRegistersWritesUpToX x s hm).1 hin
  obtain rfl : t' = t := Host.Outcome.next.inj (hexec.symm.trans hstore)
  have hi : t'.i = s.i := by rw [hframe]
  have haddr : ∀ k, ({ t' with v := w } : State).dataAddr k = s.dataAddr k :=
    fun k => congrArg (·.toNat + k) hi
  obtain ⟨u, hload, hread, hkept, -⟩ :=
    (loadRegistersReadsUpToX x { t' with v := w }).1 ((haddr _).trans_le hin)
  exact ⟨u, hload, fun k hk => by rw [hread k hk, haddr, hstored k hk], hkept⟩

/-- Settles O47: of the effects, only one writes `I`, and it is that of the three instructions. -/
theorem indexChangesOnlyByItsThreeInstructions :
    Obligations.IndexChangesOnlyByItsThreeInstructions := by
  intro i s t h hne
  cases exec_effect h with
  | indexes _ _ hi => exact hi
  | _ => exact absurd rfl hne

/-- Settles O13: each handler writes its value to `I`; the sum's residue is taken by the word's width. -/
theorem indexInstructionsWriteI : Obligations.IndexInstructionsWriteI := by
  refine ⟨encoded_of_mem_rows (by simp [rows]), encoded_of_mem_rows (by simp [rows]),
    encoded_of_mem_rows (by simp [rows]), fun nnn x s => ⟨?_, ?_, rfl⟩⟩
  · rw [← zext16_eq_ofNat]
    rfl
  · rw [← add_zext16_eq_ofNat]
    rfl

end Sys2Proof.Proofs
end

section
/-! SUPPORT. What a draw in range leaves on the display and in `VF` (43_display.md R270, R272), and the
statements of 43_display.md. -/

namespace Sys2Proof.Machine

open Sys2Proof.Statements

/-- Two displays with the same cells are the same. -/
theorem Display.ext_cell {d e : Display}
    (h : ∀ c < 64, ∀ r < 32, d.cell (r * 64 + c) = e.cell (r * 64 + c)) : d = e :=
  Display.ext_pixel fun c hc r hr => by rw [← d.cell_eq hc, ← e.cell_eq hc, h c hc r hr]

@[simp] theorem Display.cell_clear (p : Nat) : Display.clear.cell p = false := Display.pixel_clear _ _

/-- The sprite drawn from the bytes at `I` covers the pixels `Covered` names (R272). -/
theorem spriteCovers_readData_iff (s : State) (x y : RegIdx) (n : Fin 16) {c r : Nat} (hc : c < 64)
    (hr : r < 32) : SpriteCovers (s.readData n.val) (s.spriteCol x) (s.spriteRow y) c r ↔
      Covered s x y n c r := by
  have hlen : (s.readData n.val).length = n.val := Memory.length_readBytes ..
  have hbyte (dr : Nat) (h : dr < (s.readData n.val).length) :
      (s.readData n.val)[dr] = s.mem.read (s.dataAddr dr) := Memory.getElem_readBytes ..
  simp only [SpriteCovers, RowCovers, mem_rowColumns, hbyte, Nat.mod_eq_of_lt hc, Nat.mod_eq_of_lt hr]
  constructor
  · rintro ⟨dr, hdr, dc, hdc, hbit⟩
    exact ⟨dc, hdc, dr, hlen ▸ hdr, hbit⟩
  · rintro ⟨dc, hdc, dr, hdr, hbit⟩
    exact ⟨dr, hlen.symm ▸ hdr, dc, hdc, hbit⟩

/-- Which pixels lie under the sprite depends on memory, `I`, `V[x]` and `V[y]` alone. -/
theorem covered_congr {s t : State} {x y : RegIdx} (hmem : t.mem = s.mem) (hi : t.i = s.i)
    (hx : t.v[x] = s.v[x]) (hy : t.v[y] = s.v[y]) (n : Fin 16) (c r : Nat) :
    Covered t x y n c r ↔ Covered s x y n c r := by
  simp only [Covered, State.dataAddr, hmem, hi, hx, hy]

/-- The draw of draw-sprite, from the display of `s` (R272). -/
def State.spriteDraw (s : State) (x y : RegIdx) (n : Fin 16) : Blit :=
  Blit.rows ⟨s.display, false⟩ (s.readData n.val) (s.spriteCol x) (s.spriteRow y)

theorem exec_drawSprite_of_fits {x y : RegIdx} {n : Fin 16} {s : State}
    (hin : n.val = 0 ∨ s.dataAddr (n.val - 1) ≤ 0xFFF) :
    exec (.drawSprite x y n) s =
      .next ({ s with display := (s.spriteDraw x y n).display, drawPending := true }.setReg vF
        (flagByte (s.spriteDraw x y n).collision)).advance :=
  congrArg Host.Outcome.next (State.withData_of_fits hin _)

theorem State.readData_length_le (s : State) (n : Fin 16) : (s.readData n.val).length ≤ 32 := by
  have hlen : (s.readData n.val).length = n.val := Memory.length_readBytes ..
  omega

theorem State.spriteDraw_cell (s : State) (x y : RegIdx) (n : Fin 16) {c r : Nat} (hc : c < 64)
    (hr : r < 32) :
    (Covered s x y n c r →
      (s.spriteDraw x y n).display.cell (r * 64 + c) = !s.display.cell (r * 64 + c)) ∧
    (¬Covered s x y n c r →
      (s.spriteDraw x y n).display.cell (r * 64 + c) = s.display.cell (r * 64 + c)) := by
  rw [← spriteCovers_readData_iff s x y n hc hr, Display.cell_eq _ hc, Display.cell_eq _ hc]
  exact Blit.rows_pixel _ (s.readData_length_le n) _ _ _ c r

theorem State.spriteDraw_collision_iff (s : State) (x y : RegIdx) (n : Fin 16) :
    (s.spriteDraw x y n).collision = true ↔
      ∃ c < 64, ∃ r < 32, Covered s x y n c r ∧ s.display.cell (r * 64 + c) = true := by
  rw [State.spriteDraw, Blit.rows_collision _ (s.readData_length_le n),
    or_iff_right Bool.false_ne_true]
  refine exists_congr fun c => and_congr_right fun hc => exists_congr fun r =>
    and_congr_right fun hr => ?_
  rw [spriteCovers_readData_iff s x y n hc hr, Display.cell_eq _ hc]

end Sys2Proof.Machine

namespace Sys2Proof.Proofs

open Sys2Proof.Machine Sys2Proof.Statements

/-- Settles O26: the cells and the collision flag of the draw; the flag is the one register written. -/
theorem drawSpriteFlipsCoveredPixels : Obligations.DrawSpriteFlipsCoveredPixels := by
  intro x y n s
  refine ⟨fun hin => ?_, fun hout => exec_of_out_of_range hout⟩
  have hhit := s.spriteDraw_collision_iff x y n
  refine ⟨_, exec_drawSprite_of_fits hin, fun c hc r hr => s.spriteDraw_cell x y n hc hr,
    fun hset => ?_, fun hclear => ?_, fun k hk => State.reg_setReg_other _ hk.symm _, rfl⟩
  · exact (State.reg_setReg_self _ vF _).trans (if_pos (hhit.2 hset))
  · refine (State.reg_setReg_self _ vF _).trans (if_neg fun h => ?_)
    obtain ⟨c, hc, r, hr, hcov, hset⟩ := hhit.1 h
    exact Bool.false_ne_true ((hclear c hc r hr hcov).symm.trans hset)

/-- Settles O27: both draws cover the same pixels, so a pixel is flipped twice or not at all, and the second
draw finds a covered pixel set exactly when it was 0 before the first. -/
theorem drawingTwiceRestoresDisplay : Obligations.DrawingTwiceRestoresDisplay := by
  intro x y n s t hin hdraw hx hy
  obtain ⟨t', hexec, hfirst, -, -, -, hframe⟩ := (drawSpriteFlipsCoveredPixels x y n s).1 hin
  obtain rfl : t' = t := Host.Outcome.next.inj (hexec.symm.trans hdraw)
  have hmem : t'.mem = s.mem := by rw [hframe]
  have hi : t'.i = s.i := by rw [hframe]
  have hcov := covered_congr hmem hi hx hy n
  have haddr : t'.dataAddr (n.val - 1) = s.dataAddr (n.val - 1) := congrArg (·.toNat + _) hi
  obtain ⟨u, hexec', hsecond, hset, hclear, -⟩ :=
    (drawSpriteFlipsCoveredPixels x y n t').1 (haddr.symm ▸ hin)
  refine ⟨u, hexec', Display.ext_cell fun c hc r hr => ?_, fun hone => ?_, ?_⟩
  · by_cases h : Covered s x y n c r
    · rw [(hsecond c hc r hr).1 ((hcov c r).2 h), (hfirst c hc r hr).1 h, Bool.not_not]
    · rw [(hsecond c hc r hr).2 (mt (hcov c r).1 h), (hfirst c hc r hr).2 h]
  · by_contra hnone
    have hzero : u.v[vF] = 0 := hclear fun c hc r hr h => by
      have hcs := (hcov c r).1 h
      rw [(hfirst c hc r hr).1 hcs, Bool.not_eq_false']
      exact Bool.eq_true_of_not_eq_false fun h0 => hnone ⟨c, hc, r, hr, hcs, h0⟩
    exact absurd (hzero.symm.trans hone) (by decide)
  · rintro ⟨c, hc, r, hr, h, h0⟩
    refine hset ⟨c, hc, r, hr, (hcov c r).2 h, ?_⟩
    rw [(hfirst c hc r hr).1 h, h0, Bool.not_false]

/-- Settles O25: every cell of the cleared display is 0. -/
theorem clearDisplayZeroesEveryPixel : Obligations.ClearDisplayZeroesEveryPixel :=
  ⟨encoded_of_mem_rows (by simp [rows]), fun _ => ⟨_, rfl, fun p _ => Display.cell_clear p, rfl⟩⟩

end Sys2Proof.Proofs
end

section
/-! SUPPORT. The two outcomes of a key skip (44_keys_timers.md R290 to R292), the end of a step whose handler
leaves the machine running (60_exceptions.md R323, R327), and the statements of 44_keys_timers.md. -/

namespace Sys2Proof.Machine

open Sys2Proof.Safety

/-- A skip on a proposition its condition decides of the key `V[x]` names. -/
theorem State.skipOnKey_of_iff {s : State} {x : RegIdx} {k : KeyIdx} {cond : Bool → Bool} {p : Prop}
    [Decidable p] (hk : (s.reg x).toNat = k.val) (h : cond s.keys[k] = true ↔ p) :
    s.skipOnKey x cond = { s with pc := if p then s.pc + 4 else s.pc + 2 } := by
  rw [State.skipOnKey, keyOperand_of_eq hk]
  exact s.skipIf_of_iff h

theorem State.skipOnKey_of_gt {s : State} {x : RegIdx} (h : 0x0F < (s.reg x).toNat) (cond : Bool → Bool) :
    s.skipOnKey x cond = s.raise .keyIndexOutOfRange (zext16 (s.reg x)) := by
  rw [State.skipOnKey, keyOperand_of_gt h]

/-- A handler that leaves the machine running has raised nothing, so its step ticks and samples. -/
theorem step_of_exec_running {s t : State} {i : Instr} (hr : Running s) (hat : AtInstr s i)
    (hexec : exec i s = .next t) (ht : t.halted = false) : step s = .next (s.recordSample t.tick) := by
  rw [step_of_exec hr hat hexec, State.finish_of_running ht]

end Sys2Proof.Machine

namespace Sys2Proof.Proofs

open Sys2Proof.Machine Sys2Proof.Statements

/-- Settles O28: the two handlers differ only in the condition they ask of the key's flag. -/
theorem keySkipsFollowTheKeyFlag : Obligations.KeySkipsFollowTheKeyFlag := by
  intro x s
  refine ⟨fun k hk => ⟨?_, ?_⟩, fun hgt => ?_⟩
  · exact congrArg Host.Outcome.next (State.skipOnKey_of_iff hk Iff.rfl)
  · exact congrArg Host.Outcome.next (State.skipOnKey_of_iff hk (Bool.not_eq_true' _).to_iff)
  · rw [← zext16_eq_ofNat]
    exact ⟨congrArg Host.Outcome.next (State.skipOnKey_of_gt hgt _),
      congrArg Host.Outcome.next (State.skipOnKey_of_gt hgt _)⟩

/-- Settles O29: each handler is, by its definition, the one move and the advance. -/
theorem timerInstructionsMoveTimers : Obligations.TimerInstructionsMoveTimers :=
  ⟨encoded_of_mem_rows (by simp [rows]), encoded_of_mem_rows (by simp [rows]),
    encoded_of_mem_rows (by simp [rows]), fun _ _ => ⟨rfl, rfl, rfl⟩⟩

/-- Settles O30: the handlers of O29 leave the machine running, and the tick comes after them. -/
theorem stepOfTimerInstructionTicksAfterIt : Obligations.StepOfTimerInstructionTicksAfterIt := by
  intro x s hr
  obtain ⟨-, -, -, hmoves⟩ := timerInstructionsMoveTimers
  obtain ⟨hget, hdelay, hsound⟩ := hmoves x s
  refine ⟨fun hat => ⟨_, step_of_exec_running hr hat hget hr.1, ?_, tickTimer_toNat _⟩,
    fun hat => ⟨_, step_of_exec_running hr hat hdelay hr.1, tickTimer_toNat _, tickTimer_toNat _⟩,
    fun hat => ⟨_, step_of_exec_running hr hat hsound hr.1, tickTimer_toNat _, tickTimer_toNat _⟩⟩
  exact s.reg_setReg_self x s.delayTimer

/-- Settles O31: the handler only suspends the machine, which runs on to the tick and the sample. -/
theorem waitForKeySuspends : Obligations.WaitForKeySuspends := by
  intro x s
  have hexec : exec (.waitForKey x) s = .next { s with awaitingKey := true, keyTarget := x } := rfl
  refine ⟨hexec, fun hr hat => ⟨_, step_of_exec_running hr hat hexec hr.1, ?_⟩⟩
  exact ⟨rfl, rfl, rfl, rfl, rfl, tickTimer_toNat _, tickTimer_toNat _⟩

end Sys2Proof.Proofs
end

section
/-! SUPPORT. How a handler ends on a running machine, said once (`exec_ends`): with an error and its cause
(60_exceptions.md R329, R330), or with none and at the `pc` of R324. What a step that ends by an error is
(`step_of_error`), what the other parts of a step leave, and the statements of 60_exceptions.md. -/

namespace Sys2Proof.Machine

open Sys2Proof.Safety Sys2Proof.Statements

/-! ### The end of a handler -/

/-- The errors the handler of an instruction can raise on `s`, each with its cause and context (R329). -/
inductive Raises (s : State) : Instr → ErrorKind → Word → Prop where
  /-- No decode rule matched (R331). -/
  | unknown (w : Word) : Raises s (.unknownOpcode w) .unknownOpcode w
  /-- A call with all slots taken (R145). -/
  | overflow (nnn : Addr12) (hsp : s.sp.val = 16) : Raises s (.call nnn) .stackOverflow s.pc
  /-- A return with no slot taken (R143). -/
  | underflow (hsp : s.sp.val = 0) : Raises s .ret .stackUnderflow s.pc
  /-- A data access whose last address is above 0xFFF (R80). -/
  | data (i : Instr) (hout : accessed i ≠ 0 ∧ 0xFFF < s.dataAddr (accessed i - 1)) :
      Raises s i .dataAddressOutOfRange s.i
  /-- A key number above 0x0F (R290). -/
  | key (i : Instr) (x : RegIdx) (hi : i = .skipIfKeyDown x ∨ i = .skipIfKeyUp x)
      (hgt : 0x0F < (s.reg x).toNat) : Raises s i .keyIndexOutOfRange (zext16 (s.reg x))

/-- How the handler of `i` ends on `s`: with an error, which changes `halted` and `stop` alone (R330), or
with none and, from a fetched instruction, at the `pc` of the table (R324). -/
inductive Ends (s : State) (i : Instr) : State → Prop where
  /-- With an error. -/
  | raises (kind : ErrorKind) (ctx : Word) (h : Raises s i kind ctx) : Ends s i (s.raise kind ctx)
  /-- Without one. -/
  | completes (t : State) (hraised : t.raised = false)
      (hpc : s.pc.toNat + 1 < 4096 → t.pc.toNat = nextPc s i) : Ends s i t

theorem Ends.of_advance {s t : State} {i : Instr} (ht : t.halted = false) (hpc : t.pc = s.pc)
    (hi : nextPc s i = s.pc.toNat + 2) : Ends s i t.advance := by
  refine .completes _ (State.raised_of_running ht) fun hp => ?_
  rw [State.advance_pc, hpc, hi]
  bv_omega

theorem Ends.of_jumpTo {s t : State} {i : Instr} (ht : t.halted = false) {p : Word}
    (hi : p.toNat = nextPc s i) : Ends s i (t.jumpTo p) :=
  .completes _ (State.raised_of_running ht) fun _ => hi

/-- A skip on a proposition its condition decides. -/
theorem Ends.of_skipIf {s : State} {i : Instr} (hs : s.halted = false) {c : Bool} {p : Prop} [Decidable p]
    (hc : c = true ↔ p) (hi : nextPc s i = if p then s.pc.toNat + 4 else s.pc.toNat + 2) :
    Ends s i (s.skipIf c) := by
  refine .completes _ (State.raised_of_running hs) fun hp => ?_
  rw [s.skipIf_of_iff hc, hi]
  by_cases h : p
  · simp only [if_pos h]
    bv_omega
  · simp only [if_neg h]
    bv_omega

/-- A skip where the flag of the key `V[x]` names is `b`. -/
theorem Ends.of_skipOnKey {s : State} {i : Instr} (hs : s.halted = false) {x : RegIdx}
    (hx : i = .skipIfKeyDown x ∨ i = .skipIfKeyUp x) {cond : Bool → Bool} {b : Bool}
    (hcond : ∀ down, cond down = true ↔ down = b)
    (hi : nextPc s i =
      if s.keys.toList[(s.reg x).toNat]? = some b then s.pc.toNat + 4 else s.pc.toNat + 2) :
    Ends s i (s.skipOnKey x cond) := by
  rcases s.skipOnKey_cases x cond with ⟨k, hk, heq⟩ | ⟨hgt, heq⟩
  · rw [heq]
    refine .of_skipIf hs ?_ hi
    rw [hcond, hk]
    simp
  · rw [heq]
    exact .raises _ _ (.key i x hx hgt)

theorem Ends.of_withData {s t : State} {i : Instr} {n : Nat} (hn : accessed i = n) (ht : Ends s i t) :
    Ends s i (s.withData n t) := by
  subst hn
  rcases s.withData_cases (accessed i) t with ⟨-, heq⟩ | ⟨hout, heq⟩
  · rw [heq]
    exact ht
  · rw [heq]
    exact .raises _ _ (.data i hout)

theorem Ends.of_call {s t : State} {nnn : Addr12} (hs : s.halted = false)
    (h : exec (.call nnn) s = .next t) : Ends s (.call nnn) t := by
  rcases Nat.lt_or_ge s.sp.val 16 with hlt | hge
  · rw [exec_call_of_lt hlt] at h
    cases h
    exact .completes _ (State.raised_of_running hs) fun _ => zext16_toNat (by decide) nnn
  · have hfull : s.sp.val = 16 := by omega
    rw [exec_call_of_full hfull] at h
    cases h
    exact .raises _ _ (.overflow nnn hfull)

theorem Ends.of_ret {s t : State} (hs : s.halted = false) (h : exec .ret s = .next t) :
    Ends s .ret t := by
  rcases Nat.eq_zero_or_pos s.sp.val with h0 | h0
  · rw [exec_ret_of_empty h0] at h
    cases h
    exact .raises _ _ (.underflow h0)
  · have hk : s.sp.val - 1 < 16 := by omega
    rw [exec_ret_of_eq (k := ⟨s.sp.val - 1, hk⟩) (by simp only; omega)] at h
    cases h
    refine .completes _ (State.raised_of_running hs) fun _ => ?_
    simp [nextPc, hk]

/-- Every handler run on a machine that is not halted ends with an error of its instruction, or with none
at the `pc` of the table. -/
theorem exec_ends {i : Instr} {s t : State} (hs : s.halted = false) (h : exec i s = .next t) :
    Ends s i t := by
  cases i with
  | call nnn => exact .of_call hs h
  | ret => exact .of_ret hs h
  | explicitHalt => cases h; exact .completes _ rfl fun _ => rfl
  | waitForKey x => cases h; exact .completes _ (State.raised_of_running hs) fun _ => rfl
  | unknownOpcode w => cases h; exact .raises _ _ (.unknown w)
  | jump nnn => cases h; exact .of_jumpTo hs (zext16_toNat (by decide) nnn)
  | jumpIndexed nnn => cases h; exact .of_jumpTo hs (zext16_add_toNat nnn _)
  | skipIfEqImm _ _ | skipIfEqReg _ _ => cases h; exact .of_skipIf hs beq_iff_eq rfl
  | skipIfNeImm _ _ | skipIfNeReg _ _ => cases h; exact .of_skipIf hs bne_iff_ne rfl
  | skipIfKeyDown x => cases h; exact .of_skipOnKey hs (.inl rfl) (fun _ => Iff.rfl) rfl
  | skipIfKeyUp x =>
    cases h
    exact .of_skipOnKey hs (.inr rfl) (fun down => (Bool.not_eq_true' down).to_iff) rfl
  | drawSprite _ _ _ | storeBcd _ | storeRegisters _ | loadRegisters _ =>
    cases h; exact .of_withData rfl (.of_advance hs rfl rfl)
  | _ => cases h; exact .of_advance hs rfl rfl

/-- An error a handler raises has the cause its kind gives, at the instruction the step runs. -/
theorem Raises.errorCause {s : State} {i : Instr} {kind : ErrorKind} {ctx : Word}
    (h : Raises s i kind ctx) (hat : AtInstr s i) : ErrorCause s ctx kind := by
  cases h with
  | unknown => exact hat
  | overflow nnn hsp => exact ⟨⟨nnn, hat⟩, hsp, rfl⟩
  | underflow hsp => exact ⟨hat, hsp, rfl⟩
  | data _ hout => exact ⟨i, hat, hout.1, hout.2, rfl⟩
  | key _ x hi hgt =>
    refine ⟨x, ?_, hgt, zext16_toNat (by decide) _⟩
    rcases hi with rfl | rfl
    · exact .inl hat
    · exact .inr hat

/-- A handler that leaves a running machine halted by an error raised that error. -/
theorem exec_of_error {i : Instr} {s t : State} {kind : ErrorKind} {ctx : Word} (hs : s.halted = false)
    (h : exec i s = .next t) (ht : t.halted = true) (hstop : t.stop = .error kind ctx) :
    Raises s i kind ctx ∧ t = s.raise kind ctx := by
  cases exec_ends hs h with
  | raises kind' ctx' hr =>
    rw [State.raise_stop] at hstop
    cases hstop
    exact ⟨hr, rfl⟩
  | completes _ hraised =>
    have hyes : t.raised = true := (State.raised_iff t).2 ⟨ht, kind, ctx, hstop⟩
    exact absurd (hraised.symm.trans hyes) Bool.false_ne_true

/-! ### The parts of a step around the handler -/

/-- A key wait writes registers, `pc`, `awaiting_key` and the sample alone (R322). -/
theorem State.keyWait_frame (s : State) :
    s.keyWait = { s with
      v := s.keyWait.v, pc := s.keyWait.pc, awaitingKey := s.keyWait.awaitingKey, prevKeys := s.keys } := by
  rcases s.keyWait_cases with ⟨-, hk⟩ | ⟨k, -, -, hk⟩
  · rw [hk]
    rfl
  · rw [hk]
    rfl

@[simp] theorem State.keyWait_delayTimer (s : State) : s.keyWait.delayTimer = s.delayTimer := by
  rw [s.keyWait_frame]

@[simp] theorem State.keyWait_soundTimer (s : State) : s.keyWait.soundTimer = s.soundTimer := by
  rw [s.keyWait_frame]

@[simp] theorem State.keyWait_keys (s : State) : s.keyWait.keys = s.keys := by rw [s.keyWait_frame]

@[simp] theorem State.keyWait_prevKeys (s : State) : s.keyWait.prevKeys = s.keys := by
  rw [s.keyWait_frame]

@[simp] theorem State.keyWait_halted (s : State) : s.keyWait.halted = s.halted := by
  rw [s.keyWait_frame]

/-- The end of a step writes the timers and the sample alone (R325, R327). -/
theorem State.finish_frame (s t : State) :
    s.finish t = { t with
      delayTimer := (s.finish t).delayTimer, soundTimer := (s.finish t).soundTimer,
      prevKeys := s.keys } := by
  unfold State.finish
  split <;> rfl

@[simp] theorem State.finish_keys (s t : State) : (s.finish t).keys = t.keys := by rw [s.finish_frame]

@[simp] theorem State.finish_prevKeys (s t : State) : (s.finish t).prevKeys = s.keys := by
  rw [s.finish_frame]

@[simp] theorem State.finish_halted (s t : State) : (s.finish t).halted = t.halted := by
  rw [s.finish_frame]

@[simp] theorem State.finish_stop (s t : State) : (s.finish t).stop = t.stop := by rw [s.finish_frame]

/-- The end of a step whose handler raised no error: the tick and the sample. -/
theorem State.finish_of_not_raised {s t : State} (h : t.raised = false) :
    s.finish t = s.recordSample t.tick := by
  rw [State.finish, h]
  rfl

/-- What a step of a machine that is not halted is when it ends halted by an error: the error, raised for
its cause, and the key sample. -/
theorem step_of_error {s t : State} {kind : ErrorKind} {ctx : Word} (hs : s.halted = false)
    (h : step s = .next t) (ht : t.halted = true) (hstop : t.stop = .error kind ctx) :
    s.awaitingKey = false ∧ ErrorCause s ctx kind ∧ t = s.recordSample (s.raise kind ctx) := by
  rcases step_cases h with ⟨hh, -⟩ | ⟨-, -, rfl⟩ | ⟨hr, hp, rfl⟩ | ⟨i, u, hr, hat, hu, rfl⟩
  · exact absurd (hs.symm.trans hh) Bool.false_ne_true
  · rw [State.keyWait_halted] at ht
    exact absurd (hs.symm.trans ht) Bool.false_ne_true
  · rw [State.recordSample_stop, State.raise_stop] at hstop
    cases hstop
    exact ⟨hr.2, ⟨hp, rfl⟩, rfl⟩
  · rw [State.finish_halted] at ht
    rw [State.finish_stop] at hstop
    obtain ⟨hraises, rfl⟩ := exec_of_error hs hu ht hstop
    exact ⟨hr.2, hraises.errorCause hat, State.finish_of_raised (State.raised_raise s kind ctx)⟩

/-! ### Runs of steps -/

theorem run_succ_of_next {M : Host.Core} {s t : M.State} (h : M.step s = .next t) (n : Nat) :
    M.run (n + 1) s = M.run n t := by
  rw [Host.Core.run, h]

/-! ### The host (R329, R336) -/

/-- The code of an error is its number in the table of R329. -/
theorem errorCode_toNat (kind : ErrorKind) : (errorCode kind).toNat = errorNumber kind := by
  cases kind <;> rfl

theorem Block.act_loadRom_of_accepted {b : Block} {rom : List Byte} (hfirst : b.started = false)
    (hlen : rom.length ≤ Config.romMax) :
    b.act (.loadRom rom) = (.done, { b with machine := b.machine.loadRom rom }) :=
  if_neg (by simp [hfirst, hlen])

theorem Block.act_loadRom_of_refused {b : Block} {rom : List Byte}
    (h : b.started = true ∨ Config.romMax < rom.length) : b.act (.loadRom rom) = (.romRefused, b) :=
  if_pos (by simpa using h)

end Sys2Proof.Machine

namespace Sys2Proof.Proofs

open Sys2Proof.Machine Sys2Proof.Safety Sys2Proof.Statements

/-- Settles O24: the handlers by how they end, the pushed slot by the call's equation, and the key wait by
its two outcomes. -/
theorem nextPcFollowsTable : Obligations.NextPcFollowsTable := by
  refine ⟨fun i s hs hp => ?_, fun nnn s t hs hcall hraised => ?_, fun s hs ha => ?_⟩
  · obtain ⟨t, ht⟩ := exec_answers i s
    refine ⟨t, ht, fun kind ctx hhalt hstop => ?_, fun hraised => ?_⟩
    · obtain ⟨-, rfl⟩ := exec_of_error hs ht hhalt hstop
      rfl
    · cases exec_ends hs ht with
      | raises => exact absurd hraised.symm Bool.false_ne_true
      | completes _ _ hpc => exact hpc hp
  · rcases Nat.lt_or_ge s.sp.val 16 with hlt | hge
    · rw [exec_call_of_lt hlt] at hcall
      cases hcall
      exact ⟨⟨s.sp.val, hlt⟩, rfl, Vector.getElem_set_self hlt⟩
    · rw [exec_call_of_full (by omega)] at hcall
      cases hcall
      exact absurd hraised.symm Bool.false_ne_true
  · refine ⟨_, step_of_waiting hs ha, ?_⟩
    rcases s.keyWait_cases with ⟨-, hk⟩ | ⟨k, -, -, hk⟩
    · rw [hk]
      exact (if_pos ha).symm
    · rw [hk]
      rfl

/-- Settles O41: an error is `raise`, in the handler, and in the step with the sample after it. -/
theorem errorsArePrecise : Obligations.ErrorsArePrecise := by
  refine ⟨fun i s t kind ctx hs h ht hstop => ?_, fun s t kind ctx hs h ht hstop => ?_⟩
  · obtain ⟨-, hraise⟩ := exec_of_error hs h ht hstop
    exact hraise
  · obtain ⟨-, -, hraise⟩ := step_of_error hs h ht hstop
    exact hraise

/-- Settles O42, by the inversion of a step that ends by an error. -/
theorem errorsHaveTheirCauses : Obligations.ErrorsHaveTheirCauses := by
  intro s t kind ctx hs h ht hstop
  obtain ⟨hawake, hcause, -⟩ := step_of_error hs h ht hstop
  exact ⟨hawake, hcause⟩

/-- Settles O43: no branch but that of a handler without an error writes the timers, and that one ticks
them from what the handler left. -/
theorem timersTickOnlyAfterCompletedHandlers : Obligations.TimersTickOnlyAfterCompletedHandlers := by
  intro s t h
  refine ⟨fun hcase => ?_, fun i u hr hat hu hraised => ?_⟩
  · rcases step_cases h with ⟨-, rfl⟩ | ⟨-, -, rfl⟩ | ⟨-, -, rfl⟩ | ⟨i, u, ⟨hs, ha⟩, hat, -, -⟩
    · exact ⟨rfl, rfl⟩
    · exact ⟨s.keyWait_delayTimer, s.keyWait_soundTimer⟩
    · exact ⟨rfl, rfl⟩
    · rcases hcase with hh | hw | hp | hraised
      · exact absurd (hs.symm.trans hh) Bool.false_ne_true
      · exact absurd (ha.symm.trans hw) Bool.false_ne_true
      · exact absurd hat.1 (Nat.not_lt.2 hp)
      · obtain ⟨ht, kind, ctx, hstop⟩ := (State.raised_iff t).1 hraised
        obtain ⟨-, -, rfl⟩ := step_of_error hs h ht hstop
        exact ⟨rfl, rfl⟩
  · obtain rfl := Host.Outcome.next.inj ((step_of_exec hr hat hu).symm.trans h)
    rw [State.finish_of_not_raised hraised]
    exact ⟨tickTimer_toNat _, tickTimer_toNat _⟩

/-- Settles O44: every branch but the halted one ends with the sample, and no handler writes the keys. -/
theorem runningStepRecordsKeySample : Obligations.RunningStepRecordsKeySample := by
  intro s t hs h
  rcases step_cases h with ⟨hh, -⟩ | ⟨-, -, rfl⟩ | ⟨-, -, rfl⟩ | ⟨i, u, -, -, hu, rfl⟩
  · exact absurd (hs.symm.trans hh) Bool.false_ne_true
  · exact ⟨s.keyWait_keys, s.keyWait_prevKeys⟩
  · exact ⟨rfl, rfl⟩
  · obtain ⟨hkeys, -⟩ := controlStateChangesOnlyAsNamed i s u hu
    exact ⟨(s.finish_keys u).trans hkeys, s.finish_prevKeys u⟩

/-- Settles O36, by induction on the number of steps. -/
theorem haltedMachineNeverChanges : Obligations.HaltedMachineNeverChanges := by
  intro s n hs
  induction n with
  | zero => rfl
  | succ n ih =>
    have hstep : core.step s = .next s := step_of_halted hs
    exact (run_succ_of_next hstep n).trans ih

/-- Settles O37: with no down edge the key wait is the sample alone. -/
theorem keyWaitWithoutEdgeOnlyRecordsSample : Obligations.KeyWaitWithoutEdgeOnlyRecordsSample := by
  intro s hs ha hno
  rcases s.keyWait_cases with ⟨-, hk⟩ | ⟨k, hdown, hup, -⟩
  · rw [step_of_waiting hs ha, hk]
    rfl
  · exact absurd (hup.symm.trans (hno k hdown)) Bool.false_ne_true

/-- Settles O38: with a down edge the key wait resolves with a key that shows one. -/
theorem keyWaitResolvesOnDownEdge : Obligations.KeyWaitResolvesOnDownEdge := by
  rintro s hs ha ⟨k, hdown, hup⟩
  rcases s.keyWait_cases with ⟨hno, -⟩ | ⟨k', hdown', hup', hk⟩
  · exact absurd (hup.symm.trans (hno k hdown)) Bool.false_ne_true
  · refine ⟨k', hdown', hup', ?_⟩
    rw [step_of_waiting hs ha, hk]
    rfl

/-- Settles O55: a ROM within the bound ends inside memory, so it reads back by `read_writeBytes`. -/
theorem romIsLoadedAt200BeforeFirstStep : Obligations.RomIsLoadedAt200BeforeFirstStep := by
  intro b rom hm
  refine ⟨fun hfirst hlen => ?_, Block.act_loadRom_of_refused⟩
  have hread := Memory.read_writeBytes hm 0x200 rom (by rw [Config.memSize]; omega)
  refine ⟨_, Block.act_loadRom_of_accepted hfirst hlen, fun k hk => ?_, fun a ha => ?_, rfl⟩
  · have hin : 0x200 ≤ 0x200 + k ∧ 0x200 + k - 0x200 < rom.length := by omega
    refine (hread _).trans ((dif_pos hin).trans ?_)
    simp only [Nat.add_sub_cancel_left]
  · exact (hread a).trans (dif_neg (by omega))

/-- Settles O56: each action by its definition, the code by the table of R329, the result by `stop`. -/
theorem hostActionsTouchOnlyTheirState : Obligations.HostActionsTouchOnlyTheirState := by
  intro b k
  refine ⟨rfl, rfl, rfl, ⟨_, rfl, rfl, rfl, rfl, rfl, bne_iff_ne, fun kind ctx hstop => ?_,
    fun hstop => ?_⟩, fun t ht => ⟨t.result, ?_, fun hstop => ?_, fun hstop => ?_, fun kind ctx hstop => ?_⟩⟩
  · simp [State.status, hstop, stopCode, stopCtx, errorCode_toNat]
  · rcases hstop with hstop | hstop <;> simp [State.status, hstop, stopCode, stopCtx]
  · simp only [Block.act, ht]
  all_goals simp only [State.result, hstop]

/-- Settles O32: the step is `exec` and the end of the step, written out. -/
theorem stepRunsDecodedInstruction : Obligations.StepRunsDecodedInstruction := by
  intro i s t hr hat hexec
  rw [step_of_exec hr hat hexec, State.finish]
  split <;> rfl

/-- Settles O40: the handler is the raise. -/
theorem unknownOpcodeHaltsWithRawWord : Obligations.UnknownOpcodeHaltsWithRawWord := fun _ _ => rfl

end Sys2Proof.Proofs
end

section
/-! SUPPORT. What construction leaves in memory, what a loaded ROM's first fetch reads, and the statements
of 70_reset_and_hazards.md. -/

namespace Sys2Proof.Machine

open Sys2Proof.Safety

/-! ### Memory after construction (R71, R72) -/

theorem Memory.initial_font (k : Fin 80) : Memory.initial (0x50 + k.val) = Config.pFont[k] := by
  have hk : 0x50 ≤ 0x50 + k.val ∧ 0x50 + k.val - 0x50 < 80 := by omega
  refine (dif_pos hk).trans ?_
  simp only [Nat.add_sub_cancel_left, Fin.getElem_fin]

theorem Memory.initial_outside_font {a : Nat} (h : a < 0x50 ∨ 0xA0 ≤ a) : Memory.initial a = 0 :=
  dif_neg (by omega)

/-! ### The first fetch (R381, R383) -/

/-- A ROM of two bytes or more that fits in memory starts with the word fetched at 0x200. -/
theorem State.fetch_loadRom {s : State} (hm : s.mem.wf) (hpc : s.pc = 0x200) {hi lo : Byte}
    {rest : List Byte} (hlen : rest.length + 2 ≤ Config.romMax) :
    (s.loadRom (hi :: lo :: rest)).fetch = some (beWord hi lo) := by
  have hread := Memory.read_writeBytes hm 0x200 (hi :: lo :: rest)
    (by simp only [List.length_cons, Config.memSize, Config.romMax] at hlen ⊢; omega)
  have hpc' : (s.loadRom (hi :: lo :: rest)).pc.toNat = 0x200 :=
    congrArg BitVec.toNat hpc
  have hhi : (s.loadRom (hi :: lo :: rest)).mem.read 0x200 = hi :=
    (hread 0x200).trans (dif_pos ⟨Nat.le_refl _, by simp⟩)
  have hlo : (s.loadRom (hi :: lo :: rest)).mem.read (0x200 + 1) = lo :=
    (hread (0x200 + 1)).trans (dif_pos ⟨Nat.le_succ _, by simp⟩)
  rw [State.fetch_of_lt (by omega), hpc', hhi, hlo]

theorem running_reset : Running State.reset := ⟨State.reset_halted, State.reset_awaitingKey⟩

/-- With no ROM loaded, the word at 0x200 is that of explicit-halt. -/
theorem atInstr_reset : AtInstr State.reset .explicitHalt := by
  have hzero (a : Nat) (ha : 0xA0 ≤ a) : State.reset.mem.read a = 0 :=
    Memory.initial_outside_font (.inr ha)
  refine ⟨by decide, ?_⟩
  rw [hzero _ (by decide), hzero _ (by decide)]
  rfl

end Sys2Proof.Machine

namespace Sys2Proof.Safety

open Sys2Proof.Machine

theorem Inv.construct (seed : Nat) : Inv (State.construct seed) where
  memory := Memory.wf_nil
  stopRunning := iff_of_true rfl rfl
  pcBound := show (0x200 : Word).toNat ≤ 0x10FE by decide
  waitPc := nofun
  stackBound k := by simp [State.construct]
  haltedNotWaiting := nofun

end Sys2Proof.Safety

namespace Sys2Proof.Proofs

open Sys2Proof.Machine Sys2Proof.Safety

/-- Settles O35: reset is the construction with one seed. -/
theorem resetMeetsMachineInvariant : Obligations.ResetMeetsMachineInvariant :=
  ⟨Inv.construct _, Inv.construct⟩

/-- Settles O52: the fields are read off the construction; its memory lists no byte, so each address reads
as its construction value. -/
theorem constructionZeroesAllButFontAndPc : Obligations.ConstructionZeroesAllButFontAndPc := by
  intro seed
  have hv (k : RegIdx) : (State.construct seed).v[k] = 0 := Vector.getElem_replicate k.isLt
  have hstack (k : Fin 16) : (State.construct seed).stack[k] = 0 := Vector.getElem_replicate k.isLt
  have hcell (p : Nat) : (State.construct seed).display.cell p = false := Display.cell_clear p
  have hkeys (k : KeyIdx) :
      (State.construct seed).keys[k] = false ∧ (State.construct seed).prevKeys[k] = false :=
    ⟨Vector.getElem_replicate k.isLt, Vector.getElem_replicate k.isLt⟩
  exact ⟨hv, rfl, rfl, rfl, hstack, fun p _ => hcell p, rfl, rfl, hkeys, rfl, rfl, rfl, rfl, rfl, rfl,
    Memory.initial_font, fun _ _ => Memory.initial_outside_font⟩

/-- Settles O53: reset is running at 0x200, where `State.fetch_loadRom` reads the ROM's first word. -/
theorem firstStepFetchesAt200 : Obligations.FirstStepFetchesAt200 := fun _ _ _ hlen =>
  ⟨running_reset, State.reset_pc, State.fetch_loadRom Memory.wf_nil State.reset_pc hlen⟩

/-- Settles O54: the machine runs explicit-halt, and the end of the step changes nothing, since both
timers are 0 and the key sample is the one recorded already. -/
theorem unloadedMachineHaltsAtFirstStep : Obligations.UnloadedMachineHaltsAtFirstStep :=
  step_of_exec running_reset atInstr_reset rfl

end Sys2Proof.Proofs
end
